-- ==== Sys2Proof/Word.lean ====
section
/-! DEFINITION. The two widths of this hardware that the spec fixes in bits: the command byte (R60) and the fault code (R24).
Every other register has a width that is a build parameter and holds a natural number below 2^width (00_scope.md section 5.1). -/

namespace Sys2Proof

/-- A command byte or a register index: 8 bits (R40, R60). -/
abbrev Byte := BitVec 8

/-- The fault code ERR and the fields RSV and OPC of a command byte: 4 bits (R24, R60). -/
abbrev Nibble := BitVec 4

end Sys2Proof
end

