-- ==== Sys2Proof/Config.lean ====
section
/-! DEFINITION. The build parameters (00_scope.md R1 to R7) as data, and the collaborator functions (R8) and the busy read (R45) as constants
without a body. -/

namespace Sys2Proof

/-- The build parameters, fixed when the hardware is built (R9). The defaults are those of the spec's summary table (00_scope.md section 4);
FORCE_TOP_LOW has none (R7: left OPEN). -/
structure Config where
  /-- `ROUNDS`: rounds of one ENC or DEC and round keys of one key (R1). -/
  rounds : Nat
  /-- `PRIME_BIT_LENGTH = W`: width of the modulus and of every residue register (R2). -/
  w : Nat
  /-- `SEED0`: reset value of SEED (R3). -/
  seed0 : Nat
  /-- `CERTAINTY`: certainty rounds handed to the primality tester (R4). -/
  certainty : Nat := w
  /-- `VALUE_BITS = VW`: width of V and L (R5). -/
  vw : Nat := 2 * w
  /-- `SEED_BITS`: width of SEED (R6). -/
  seedBits : Nat := 64
  /-- `FORCE_TOP_LOW`: the prime candidate's top and low bits are forced to 1 (R7). -/
  forceTopLow : Bool
deriving DecidableEq, Repr

/-- The reference sizes of the source (R1, R2, R3: 16, 64, 233) with the spec's defaults and the recommended `FORCE_TOP_LOW`.
DESIGN CHOICE (log 1): the configuration of `State.reset`; statements hold for every configuration. -/
def Config.reference : Config := { rounds := 16, w := 64, seed0 := 233, forceTopLow := true }

/-- What the random source gives over a bit length, before the bound of R86 is applied (log 5). No body: nothing is known of it. -/
opaque Config.randBitsRaw : Nat → Nat → Nat

/-- What the random source gives over a bound, before the bound of R87 is applied (log 5). No body: nothing is known of it. -/
opaque Config.randBelowRaw : Nat → Nat → Nat

/-- What the primality tester answers on a candidate that is not prime (R90, U2, U4; log 5). No body: nothing is known of it. -/
opaque Config.primeTestRaw : Nat → Nat → Nat → Bool

/-- The free value of the n-th unspecified read, at an index (R45, U7; log 4). No body: nothing is known of it. -/
opaque Config.busyReadRaw : Nat → Nat → Nat

end Sys2Proof
end

