-- ==== Sys2Proof/Syntax.lean ====
section
/-! DEFINITION. The five commands (spec/opcode_table.json, R62) and the two fields of the command byte (R60). -/

namespace Sys2Proof

/-- The commands of the hardware, one constructor for each row of the opcode table. They have no encoded operands (R61). -/
inductive Instr where
  /-- 0x01: make a new cipher key (R120). -/
  | genkey
  /-- 0x02: encrypt V in place (R140). -/
  | enc
  /-- 0x03: decrypt V in place (R141). -/
  | dec
  /-- 0x04: divide V by P into L and R (R170). -/
  | split
  /-- 0x05: rebuild V from L and R (R172). -/
  | join
deriving DecidableEq, Repr

/-- The fields of format CMD8 (R60): RSV is bits 7:4, OPC is bits 3:0. -/
structure CmdFields where
  rsv : Nibble
  opc : Nibble
deriving DecidableEq, Repr

end Sys2Proof
end

