-- ==== Sys2Proof/WellFormed.lean ====
section
/-! DEFINITION. Well-formedness: of a command byte's fields (R60, R62) and of the build parameters (00_scope.md section 4, U17).
A command has no operands (R61), so every term of Instr is well formed. -/

namespace Sys2Proof

/-- RSV must be 0 (R60) and OPC one of the five opcodes (R62). -/
def CmdFields.wf (c : CmdFields) : Bool :=
  c.rsv == 0 && decide (1 ≤ c.opc.toNat) && decide (c.opc.toNat ≤ 5)

/-- The constraints on the build parameters (R1, R2, R3, R5, R6). Other values are no configuration of this hardware (U17). -/
abbrev Config.wf (c : Config) : Prop :=
  (1 ≤ c.rounds ∧ c.rounds ≤ 128) ∧ 2 ≤ c.w ∧ 2 * c.w ≤ c.vw ∧ 1 ≤ c.seedBits ∧ c.seed0 < 2 ^ c.seedBits

end Sys2Proof
end

