-- ==== Sys2Proof/Decode.lean ====
section
/-! DEFINITION. Decoding of the command byte (R60, R62), total and rejecting by name, and the encoder. -/

namespace Sys2Proof

/-- Why a byte is no command (R62). -/
inductive DecodeError where
  /-- RSV (bits 7:4) is not 0. -/
  | reservedField
  /-- RSV is 0 and OPC is not 1 to 5. -/
  | noSuchOpcode
deriving DecidableEq, Repr

/-- The fields of a command byte: `b[7:4]` and `b[3:0]` (R60). -/
def fieldsOf (b : Byte) : CmdFields := { rsv := b.extractLsb' 4 4, opc := b.extractLsb' 0 4 }

/-- The opcode map (R62). Total: each of the 256 bytes is one of the five commands or is rejected by name. -/
def decode (b : Byte) : Except DecodeError Instr :=
  let c := fieldsOf b
  if c.rsv ≠ 0 then .error .reservedField
  else match c.opc.toNat with
    | 1 => .ok .genkey
    | 2 => .ok .enc
    | 3 => .ok .dec
    | 4 => .ok .split
    | 5 => .ok .join
    | _ => .error .noSuchOpcode

/-- The OPC of a command (R62, column OPC). -/
def opcOf : Instr → Nibble
  | .genkey => 1
  | .enc => 2
  | .dec => 3
  | .split => 4
  | .join => 5

/-- The byte of a command (R62, column byte): RSV = 0 above OPC. -/
def encode (i : Instr) : Byte := (0 : Nibble) ++ opcOf i

/-- `trunc_8(v)` (R43, R60): the byte that a value written to CMD stands for. -/
def cmdByte (v : Nat) : Byte := BitVec.ofNat 8 v

/-- The command the decoder reads from a table word of `nbits` bits: one byte, the bits above `nbits` being 0. -/
def decodeTableWord (nbits w : Nat) : Option Instr :=
  match decode (cmdByte (w % 2 ^ nbits)) with
  | .ok i => some i
  | .error _ => none

end Sys2Proof
end

