-- ==== Sys2Proof/Machine/State.lean ====
section
/-! DEFINITION. The state (10_state.md R10), the events that act on it (R256), the reasons a step of the model stops, and reset (R29, R241). -/

namespace Sys2Proof.Machine

/-- The twelve phases of the sequencer (R20). PHASE has no binary encoding. -/
inductive Phase where
  | idle | fault | gDraw | gTest | gCheck | gKey | split | f | t | acc | swap | join
deriving DecidableEq, Repr

/-- The six hardware faults (R210, R211). Taking one is a NEXT state (R216), not a stop of the model. -/
inductive Cause where
  /-- Code 1, step F (R212). -/
  | notInvertible
  /-- Code 2, step G_CHECK (R213). -/
  | invalidModulus
  /-- Code 3, the accept (R214). -/
  | illegalCommand
  /-- Code 4, the accept (R215). -/
  | noKey
  /-- Code 5, step JOIN (R217). -/
  | valueOverflow
  /-- Code 6, steps G_DRAW and G_KEY (R218). -/
  | seedOverflow
deriving DecidableEq, Repr

/-- The atomic steps an execution is made of (R50, R256). -/
inductive Event where
  /-- `HostRead(idx)` (R42). -/
  | read (idx : Byte)
  /-- `HostWrite(idx, v)` (R43). -/
  | write (idx : Byte) (v : Nat)
  /-- The reset event (R240). -/
  | reset
  /-- The engine's turn: the enabled engine step, if there is one (R193). -/
  | engine
  /-- The script line WAIT (R65): STATUS is read until its bit 0 is 0. -/
  | wait
deriving DecidableEq, Repr

/-- Why the model stops with a fault. Each is raised only in a state that no run reaches, where the step rule gives no next state: SAFE (log 6).
None of them is a fault of the hardware: those are `Cause`. -/
inductive Fault where
  /-- Steps G_KEY, SPLIT, F, T, ACC with P = 0: R80 and R87 give no value for a modulus 0. SAFE. -/
  | modulusZero
  /-- Steps G_KEY, T, SWAP with RND not below ROUNDS, or with no register RK at the index: R12 and R19 give none. SAFE. -/
  | roundOutOfRange
  /-- Steps T, ACC when CMDR holds neither ENC nor DEC: no other command reaches these steps (R192). SAFE. -/
  | noDirection
  /-- Step SWAP when L does not fit the W bits of R: a write must fit its register (00_scope.md section 5.3). SAFE. -/
  | valueTooWide
deriving DecidableEq, Repr

/-- Why the model refuses a step. -/
inductive Refusal where
  /-- An instruction that has no meaning yet. No arm of `exec` raises it: every command of the table has its meaning. SAFE. -/
  | notModelled (mnemonic : String)
  /-- `step`, when the build parameters break a constraint of R1, R2, R3, R5, R6: no configuration of this hardware (U17, log 7). SAFE. -/
  | notAConfiguration
deriving DecidableEq, Repr

/-- The state. The registers are those of R10; a register of width n holds a natural number below 2^n (00_scope.md section 5.1),
an invariant that every step keeps (`Sys2Proof.Safety`). STATUS is a view (R25) and has no field. -/
structure State where
  /-- The build parameters (R1 to R7): arguments of every step and no register (R9, R28; log 1). No step writes them. -/
  cfg : Config
  /-- `P`, W bits (R11). -/
  p : Nat
  /-- `RK[0]` to `RK[ROUNDS-1]`, W bits each (R12). -/
  rk : List Nat
  /-- `KEYVALID` (R13). -/
  keyvalid : Bool
  /-- `V`, VW bits (R14). -/
  v : Nat
  /-- `L`, VW bits (R15). -/
  l : Nat
  /-- `R`, W bits (R16). -/
  r : Nat
  /-- `F`, W bits (R17). -/
  f : Nat
  /-- `T`, W bits (R18). -/
  t : Nat
  /-- `RND`, RB bits, 0 to ROUNDS (R19). -/
  rnd : Nat
  /-- `PHASE` (R20). -/
  phase : Phase
  /-- `CMDR` (R21). -/
  cmdr : Byte
  /-- `SEED`, SEED_BITS bits (R22). -/
  seed : Nat
  /-- `DONE` (R23). -/
  done : Bool
  /-- `ERR` (R24). -/
  err : Nibble
  /-- The steps still to come, the next one first (R50, R256; log 2). The outside world's, not the hardware's. -/
  events : List Event
  /-- The values that reads have returned to the host, the newest first (R42; log 9). The outside world's, not the hardware's. -/
  reads : List Nat
  /-- How many unspecified reads there have been (R45, U7; log 4). The model's own: it makes each free value a fresh one. -/
  busyReads : Nat
deriving DecidableEq, Repr

/-- The state right after reset in a given configuration (R29, R241): SEED = SEED0, PHASE = IDLE, everything else 0. -/
def State.resetOf (c : Config) : State :=
  { cfg := c, p := 0, rk := List.replicate c.rounds 0, keyvalid := false, v := 0, l := 0, r := 0, f := 0, t := 0, rnd := 0,
    phase := .idle, cmdr := 0, seed := c.seed0, done := false, err := 0, events := [], reads := [], busyReads := 0 }

/-- The machine right after reset, in the reference configuration (DESIGN CHOICE, log 1), with nothing asked by the host yet. -/
def State.reset : State := State.resetOf Config.reference

end Sys2Proof.Machine
end

