-- ==== Sys2Proof/Machine/Arith.lean ====
section
/-! DEFINITION. The integer arithmetic the steps use (40_collaborators.md R80 to R84). Sums, products, `div` and `mod` are those of Nat;
every caller sees to it that the divisor is not 0 (R80). -/

namespace Sys2Proof.Machine

/-- `trunc_n(v)` (00_scope.md section 5.1). -/
def trunc (n v : Nat) : Nat := v % 2 ^ n

/-- `bitlen(v)`: the least n with `v < 2^n` (00_scope.md section 5.1). -/
def bitlen (v : Nat) : Nat := if v = 0 then 0 else Nat.log2 v + 1

/-- `(a + b) mod p` on the exact sum (R82). -/
def modAdd (a b p : Nat) : Nat := (a + b) % p

/-- `(a - b) mod p`, never negative (R82). -/
def modSub (a b p : Nat) : Nat := (a % p + p - b % p) % p

/-- The extended Euclidean loop on the remainders `r0`, `r1`, with `t0 * a ≡ r0` and `t1 * a ≡ r1` modulo p; it answers the last `t0`.
The fuel is not used up when it is above `r1`. -/
def euclid : Nat → Nat → Nat → Nat → Nat → Nat → Nat
  | 0, _, _, _, t0, _ => t0
  | fuel + 1, p, r0, r1, t0, t1 =>
    if r1 = 0 then t0 else euclid fuel p r1 (r0 % r1) t1 (modSub t0 (r0 / r1 * t1) p)

/-- `modinv(a, p)` (R83): for `p > 0` and `gcd(a, p) = 1` the x below p with `a * x ≡ 1 (mod p)`. The spec gives no algorithm; the value is
determined (log 13). -/
def modinv (a p : Nat) : Nat := euclid (p + 1) p p (a % p) 0 1 % p

/-- The not-invertible signal (R84): raised when this is false. -/
def invertible (a p : Nat) : Bool := Nat.gcd a p == 1

end Sys2Proof.Machine
end

