-- ==== Sys2Proof/Machine/Collaborators.lean ====
section
/-! DEFINITION. The collaborator functions (R8, R85 to R91): free functions with exactly the properties the spec grants (log 5). -/

namespace Sys2Proof.Machine

/-- `RandBits(seed, n)`: any number below 2^n, a function of the two arguments (R86). -/
def randBits (seed n : Nat) : Nat := Config.randBitsRaw seed n % 2 ^ n

/-- `RandBelow(seed, bound)`: any number below the bound, a function of the two arguments (R87). Never called with bound 0. -/
def randBelow (seed bound : Nat) : Nat := Config.randBelowRaw seed bound % bound

/-- `PrimeTest(candidate, certainty, seed)` (R90): true on a prime (no false negative), any Boolean on everything else. -/
def primeTest (candidate certainty seed : Nat) : Bool :=
  Config.primeTestRaw candidate certainty seed || decide (Nat.Prime candidate)

end Sys2Proof.Machine
end

