-- ==== Sys2Proof/Machine/Flags.lean ====
section
/-! DEFINITION. The flags the host sees and the STATUS view (R25). No arithmetic step sets a flag. -/

namespace Sys2Proof.Machine

/-- Busy: PHASE is neither IDLE nor FAULT (00_scope.md section 6; STATUS bit 0). -/
def busy (s : State) : Bool := !(s.phase == .idle || s.phase == .fault)

/-- STATUS bit 3: PHASE is FAULT (R25). -/
def faulted (s : State) : Bool := s.phase == .fault

/-- `STATUS = {ERR, FAULT, KEYVALID, DONE, BUSY}` (R25), computed at the moment of the read. -/
def status (s : State) : Byte :=
  s.err ++ (BitVec.ofBool (faulted s) ++ (BitVec.ofBool s.keyvalid ++ (BitVec.ofBool s.done ++ BitVec.ofBool (busy s))))

end Sys2Proof.Machine
end

