-- ==== Sys2Proof/Machine/Operands.lean ====
section
/-! DEFINITION. How registers are named and reached: the index map (R63), what a read of an index gives (R42, R45, R49), a write by the host (R43),
and the operands the round steps select by RND and CMDR (R143, R144). -/

namespace Sys2Proof.Machine

/-- The registers that have an index (R63). -/
inductive Reg where
  | cmd | status | seed | v | l | r | p | f | t | rnd
  | rk (i : Nat)
deriving DecidableEq, Repr

/-- The map from index to register (R63). None: a reserved index (R49). -/
def regOf (c : Config) (idx : Byte) : Option Reg :=
  match idx.toNat with
  | 0x00 => some .cmd
  | 0x01 => some .status
  | 0x02 => some .seed
  | 0x03 => some .v
  | 0x04 => some .l
  | 0x05 => some .r
  | 0x06 => some .p
  | 0x07 => some .f
  | 0x08 => some .t
  | 0x09 => some .rnd
  | n => if 0x80 ≤ n ∧ n - 0x80 < c.rounds then some (.rk (n - 0x80)) else none

/-- Whether a name stands in the index map (R63): `RK[i]` only for `i < ROUNDS`, every other name always. -/
def regNamed (c : Config) : Reg → Bool
  | .rk i => decide (i < c.rounds)
  | _ => true

/-- The index of a register (R63), as a host script names it (R64). For `RK[i]` with `i >= ROUNDS`, which is no name of R63's map, the spec
gives no index. DESIGN CHOICE (log 15, unsafe): there it is `(0x80 + i) mod 256`; `regNamed` excludes such names. -/
def indexOf : Reg → Byte
  | .cmd => 0x00
  | .status => 0x01
  | .seed => 0x02
  | .v => 0x03
  | .l => 0x04
  | .r => 0x05
  | .p => 0x06
  | .f => 0x07
  | .t => 0x08
  | .rnd => 0x09
  | .rk i => BitVec.ofNat 8 (0x80 + i)

/-- The width of a register (R63, column width); `RB = bitlen(ROUNDS)` is RND's (R19). -/
def regWidth (c : Config) : Reg → Nat
  | .cmd => 8
  | .status => 8
  | .seed => c.seedBits
  | .v => c.vw
  | .l => c.vw
  | .r => c.w
  | .p => c.w
  | .f => c.w
  | .t => c.w
  | .rnd => bitlen c.rounds
  | .rk _ => c.w

/-- A register's whole content as one number (R42). A read of CMD gives CMDR (R63). -/
def regValue (s : State) : Reg → Nat
  | .cmd => s.cmdr.toNat
  | .status => (status s).toNat
  | .seed => s.seed
  | .v => s.v
  | .l => s.l
  | .r => s.r
  | .p => s.p
  | .f => s.f
  | .t => s.t
  | .rnd => s.rnd
  | .rk i => s.rk.getD i 0

/-- What a read of an index gives in phases IDLE and FAULT: the register, or 0 at a reserved index (R42, R46, R49). -/
def indexValue (s : State) (idx : Byte) : Nat :=
  match regOf s.cfg idx with
  | some x => regValue s x
  | none => 0

/-- What a read of an index other than STATUS gives while busy (R42, R45, U7): the next free value, below 2^width at a register.
The spec gives a reserved index no width, so there the value has no bound (log 4). -/
def busyValue (s : State) (idx : Byte) : Nat :=
  match regOf s.cfg idx with
  | some x => Config.busyReadRaw s.busyReads idx.toNat % 2 ^ regWidth s.cfg x
  | none => Config.busyReadRaw s.busyReads idx.toNat

/-- The host's write of an operand register, truncated to its width (R43). Every other register ignores the write (R43, R49). -/
def writeOperand (s : State) (x : Reg) (v : Nat) : State :=
  match x with
  | .seed => { s with seed := trunc s.cfg.seedBits v }
  | .v => { s with v := trunc s.cfg.vw v }
  | .l => { s with l := trunc s.cfg.vw v }
  | .r => { s with r := trunc s.cfg.w v }
  | _ => s

/-- The direction of the command in progress (43_feistel_engine.md section 1: ENC is `CMDR[3:0] = 2`, DEC is 3). -/
inductive Dir where
  | enc | dec
deriving DecidableEq, Repr

/-- The opcode of the command in progress, `CMDR[3:0]` (R21). -/
def opcode (s : State) : Nibble := (fieldsOf s.cmdr).opc

/-- ENC or DEC, from `CMDR[3:0]`. None: another command, which never reaches the steps that ask (R192). -/
def direction (s : State) : Option Dir :=
  if opcode s = opcOf .enc then some .enc else if opcode s = opcOf .dec then some .dec else none

/-- The round-key index of step T (R143): RND for ENC, ROUNDS - 1 - RND for DEC. -/
def keyIndex (d : Dir) (rounds rnd : Nat) : Nat :=
  match d with
  | .enc => rnd
  | .dec => rounds - 1 - rnd

/-- The round key of the round in progress. None: RND is not a round's number, which no run reaches. -/
def roundKey (s : State) (d : Dir) : Option Nat :=
  if s.rnd < s.cfg.rounds then s.rk[keyIndex d s.cfg.rounds s.rnd]? else none

/-- The left half's update of step ACC (R144): plus for ENC, minus for DEC, modulo p. -/
def accumulate (d : Dir) (l t p : Nat) : Nat :=
  match d with
  | .enc => modAdd l t p
  | .dec => modSub l t p

end Sys2Proof.Machine
end

