-- ==== Sys2Proof/Machine/Ops.lean ====
section
/-! DEFINITION. The shared operations: fault entry (R216), completion (R195), the command accept (R191), the draw (R88), the candidate (R101),
the reset event (R240). A hardware fault has no return; reset is the only way out (R222). -/

namespace Sys2Proof.Machine

/-- The fault codes (R211). -/
def Cause.code : Cause → Nibble
  | .notInvertible => 1
  | .invalidModulus => 2
  | .illegalCommand => 3
  | .noKey => 4
  | .valueOverflow => 5
  | .seedOverflow => 6

/-- `raise X` (R216): ERR takes the code and PHASE becomes FAULT. Nothing is saved and nothing else is written (R221). -/
def raise (x : Cause) (s : State) : State := { s with err := x.code, phase := .fault }

/-- `complete` (R195). -/
def complete (s : State) : State := { s with done := true, phase := .idle }

/-- What the accept writes in every case, also when it raises a fault (R191): CMDR and DONE. -/
def noteCommand (b : Byte) (s : State) : State := { s with cmdr := b, done := false }

/-- What an accept that raises no fault writes for every command (R191): RND, and the phase of the command's first step. -/
def start (ph : Phase) (s : State) : State := { s with rnd := 0, phase := ph }

/-- GENKEY's accept destroys the old key (R121). -/
def destroyKey (s : State) : State := { s with keyvalid := false, p := 0, rk := List.replicate s.cfg.rounds 0 }

/-- A write to CMD acts in phase IDLE only; in any other it is dropped (R43, R45, R46, R190). -/
def whenIdle (act : State → State) (s : State) : State := if s.phase = .idle then act s else s

/-- The accept of a command that needs a key (R191, R215): NoKey when there is none. -/
def acceptKeyed (i : Instr) (ph : Phase) (s : State) : State :=
  whenIdle (fun s => if s.keyvalid then start ph (noteCommand (encode i) s) else raise .noKey (noteCommand (encode i) s)) s

/-- The accept of GENKEY (R121, R191). -/
def acceptGenkey (s : State) : State :=
  whenIdle (fun s => start .gDraw (destroyKey (noteCommand (encode .genkey) s))) s

/-- The accept of a byte that is no command (R191, R214). -/
def acceptIllegal (b : Byte) (s : State) : State := whenIdle (fun s => raise .illegalCommand (noteCommand b s)) s

/-- `DRAW` (R88): SEED advances by 1 and the draw uses the new seed. None: SEED is at its maximum and the step raises SeedOverflow (R218). -/
def draw (number : Nat → Nat) (s : State) : Option (Nat × State) :=
  if s.seed = 2 ^ s.cfg.seedBits - 1 then none
  else some (number (s.seed + 1), { s with seed := s.seed + 1 })

/-- The prime candidate made of a drawn number (R101): top bit and low bit forced when FORCE_TOP_LOW. -/
def candidate (c : Config) (x : Nat) : Nat := if c.forceTopLow then x ||| 2 ^ (c.w - 1) ||| 1 else x

/-- The reset event (R240, R241): every register at its reset value, whatever the state was. The build parameters are not touched (R241);
the outside world keeps its pending events and what it has read. -/
def resetEvent (s : State) : State :=
  { State.resetOf s.cfg with events := s.events, reads := s.reads, busyReads := s.busyReads }

end Sys2Proof.Machine
end

