-- ==== Sys2Proof/Machine/Codec.lean ====
section
/-! DEFINITION. SPLIT and JOIN (R170, R172) and the two codec steps of the same names (R171, R173). -/

namespace Sys2Proof.Machine

/-- SPLIT: its accept (R170, R191), after which the engine runs the one step SPLIT. -/
def execSplit (s : State) : Host.Outcome State Fault Refusal := .next (acceptKeyed .split .split s)

/-- JOIN: its accept (R172, R191), after which the engine runs the one step JOIN. -/
def execJoin (s : State) : Host.Outcome State Fault Refusal := .next (acceptKeyed .join .join s)

/-- Step SPLIT (R171): the quotient is not reduced. It completes for command SPLIT and goes on to round 0 for ENC and DEC. -/
def stepSplit (s : State) : Host.Outcome State Fault Refusal :=
  if s.p = 0 then .fault .modulusZero
  else
    let s1 := { s with l := s.v / s.p, r := s.v % s.p }
    if opcode s = opcOf .split then .next (complete s1) else .next { s1 with phase := .f }

/-- Step JOIN (R173): the exact value, or ValueOverflow with V unchanged (R175). It does not read the opcode (C17) and checks no range (R176). -/
def stepJoin (s : State) : Host.Outcome State Fault Refusal :=
  if 2 ^ s.cfg.vw ≤ s.l * s.p + s.r then .next (raise .valueOverflow s)
  else .next (complete { s with v := s.l * s.p + s.r })

end Sys2Proof.Machine
end

