-- ==== Sys2Proof/Machine/Feistel.lean ====
section
/-! DEFINITION. ENC and DEC (R140, R141) and the four round steps F, T, ACC, SWAP (R142 to R145). -/

namespace Sys2Proof.Machine

/-- ENC: its accept (R140, R191), after which the engine runs SPLIT, the rounds and JOIN. -/
def execEnc (s : State) : Host.Outcome State Fault Refusal := .next (acceptKeyed .enc .split s)

/-- DEC: its accept (R141, R191); the same steps as ENC, which read the direction from CMDR. -/
def execDec (s : State) : Host.Outcome State Fault Refusal := .next (acceptKeyed .dec .split s)

/-- Step F (R142): the modular inverse of R, 0 for R = 0 (the zero policy, R146). -/
def stepF (s : State) : Host.Outcome State Fault Refusal :=
  if s.r = 0 then .next { s with f := 0, phase := .t }
  else if s.p = 0 then .fault .modulusZero
  else if invertible s.r s.p then .next { s with f := modinv s.r s.p, phase := .t }
  else .next (raise .notInvertible s)

/-- Step T (R143): add the round key. -/
def stepT (s : State) : Host.Outcome State Fault Refusal :=
  if s.p = 0 then .fault .modulusZero
  else match direction s with
    | none => .fault .noDirection
    | some d => match roundKey s d with
      | none => .fault .roundOutOfRange
      | some k => .next { s with t := modAdd s.f k s.p, phase := .acc }

/-- Step ACC (R144): update the left half. -/
def stepAcc (s : State) : Host.Outcome State Fault Refusal :=
  if s.p = 0 then .fault .modulusZero
  else match direction s with
    | none => .fault .noDirection
    | some d => .next { s with l := accumulate d s.l s.t s.p, phase := .swap }

/-- Step SWAP (R145): swap unless last round, and count the round. -/
def stepSwap (s : State) : Host.Outcome State Fault Refusal :=
  if s.cfg.rounds ≤ s.rnd then .fault .roundOutOfRange
  else if s.rnd + 1 = s.cfg.rounds then .next { s with rnd := s.rnd + 1, phase := .join }
  else if s.l < 2 ^ s.cfg.w then .next { s with l := s.r, r := s.l, rnd := s.rnd + 1, phase := .f }
  else .fault .valueTooWide

end Sys2Proof.Machine
end

