-- ==== Sys2Proof/Machine/KeyScheduler.lean ====
section
/-! DEFINITION. GENKEY (R120, R121) and its four engine steps: G_DRAW, G_TEST (41_prime_generator.md), G_CHECK, G_KEY (42_key_scheduler.md). -/

namespace Sys2Proof.Machine

/-- GENKEY: its accept (R121, R191), after which the engine runs the steps below. Dropped outside IDLE (R190). -/
def execGenkey (s : State) : Host.Outcome State Fault Refusal := .next (acceptGenkey s)

/-- Step G_DRAW (R101). -/
def stepGDraw (s : State) : Host.Outcome State Fault Refusal :=
  match draw (fun seed => randBits seed s.cfg.w) s with
  | none => .next (raise .seedOverflow s)
  | some (x, s1) => .next { s1 with p := candidate s.cfg x, phase := .gTest }

/-- Step G_TEST (R102): it moves PHASE and nothing else. -/
def stepGTest (s : State) : Host.Outcome State Fault Refusal :=
  .next { s with phase := if primeTest s.p s.cfg.certainty s.seed then .gCheck else .gDraw }

/-- Step G_CHECK (R122). -/
def stepGCheck (s : State) : Host.Outcome State Fault Refusal :=
  if s.p = 0 ∨ s.p % 2 = 0 then .next (raise .invalidModulus s) else .next { s with phase := .gKey }

/-- Step G_KEY (R123). -/
def stepGKey (s : State) : Host.Outcome State Fault Refusal :=
  if s.p = 0 then .fault .modulusZero
  else if s.cfg.rounds ≤ s.rnd then .fault .roundOutOfRange
  else match draw (fun seed => randBelow seed s.p) s with
    | none => .next (raise .seedOverflow s)
    | some (k, s1) =>
      let s2 := { s1 with rk := s.rk.set s.rnd k, rnd := s.rnd + 1 }
      if s.rnd + 1 = s.cfg.rounds then .next (complete { s2 with keyvalid := true }) else .next { s2 with phase := .gKey }

end Sys2Proof.Machine
end

