-- ==== Sys2Proof/Machine/Dispatch.lean ====
section
/-! DEFINITION. One arm for each command of the opcode table. -/

namespace Sys2Proof.Machine

def exec (i : Instr) (s : State) : Host.Outcome State Fault Refusal :=
  match i with
  | .genkey => Sys2Proof.Machine.execGenkey s
  | .enc => Sys2Proof.Machine.execEnc s
  | .dec => Sys2Proof.Machine.execDec s
  | .split => Sys2Proof.Machine.execSplit s
  | .join => Sys2Proof.Machine.execJoin s

end Sys2Proof.Machine
end

