-- ==== Sys2Proof/Machine/Engine.lean ====
section
/-! DEFINITION. The engine: the step that each phase enables (R192, R193), and a number of engine steps in a row. -/

namespace Sys2Proof.Machine

/-- The engine step of the phase (R193). In IDLE and FAULT none is enabled: nothing happens (log 11). -/
def engineStep (s : State) : Host.Outcome State Fault Refusal :=
  match s.phase with
  | .idle => .next s
  | .fault => .next s
  | .gDraw => stepGDraw s
  | .gTest => stepGTest s
  | .gCheck => stepGCheck s
  | .gKey => stepGKey s
  | .split => stepSplit s
  | .f => stepF s
  | .t => stepT s
  | .acc => stepAcc s
  | .swap => stepSwap s
  | .join => stepJoin s

/-- `n` engine steps in a row, stopping at the first stop of the model. -/
def engineRun : Nat → State → Host.Outcome State Fault Refusal
  | 0, s => .next s
  | n + 1, s =>
    match engineStep s with
    | .next s1 => engineRun n s1
    | .fault x => .fault x
    | .refused x => .refused x

end Sys2Proof.Machine
end

