-- ==== Sys2Proof/Machine/HostPort.lean ====
section
/-! DEFINITION. The host's two transactions (R42, R43), the write to CMD (R191), and what one event does (R256). -/

namespace Sys2Proof.Machine

/-- The number `HostRead(idx)` returns (R42): STATUS in every phase, the register in IDLE and FAULT, a free value while busy. -/
def readValue (s : State) (idx : Byte) : Nat :=
  if idx = indexOf .status then (status s).toNat
  else if busy s then busyValue s idx
  else indexValue s idx

/-- Whether a read of this index is unspecified now (R45). -/
def readIsFree (s : State) (idx : Byte) : Bool := busy s && idx != indexOf .status

/-- `HostRead(idx)` (R42): no register changes; the host is given the value. -/
def hostRead (idx : Byte) (s : State) : State :=
  { s with reads := readValue s idx :: s.reads, busyReads := if readIsFree s idx then s.busyReads + 1 else s.busyReads }

/-- A byte written to CMD (R191): the command it decodes to, or IllegalCommand. -/
def writeCmd (b : Byte) (s : State) : Host.Outcome State Fault Refusal :=
  match decode b with
  | .ok i => exec i s
  | .error _ => .next (acceptIllegal b s)

/-- `HostWrite(idx, v)` (R43): dropped unless PHASE is IDLE; CMD starts a command, SEED, V, L and R take the value, every other index ignores it. -/
def hostWrite (idx : Byte) (v : Nat) (s : State) : Host.Outcome State Fault Refusal :=
  if s.phase = .idle then
    match regOf s.cfg idx with
    | some .cmd => writeCmd (cmdByte v) s
    | some x => .next (writeOperand s x v)
    | none => .next s
  else .next s

/-- One poll of the script line WAIT (R65): STATUS is read, and while BUSY is 1 the engine has a turn and the host polls again (log 10). -/
def hostWait (s : State) : State :=
  let s1 := hostRead (indexOf .status) s
  if busy s then { s1 with events := .engine :: .wait :: s.events } else s1

/-- One event, in the state that holds the events after it (R256). -/
def runEvent (e : Event) (s : State) : Host.Outcome State Fault Refusal :=
  match e with
  | .read idx => .next (hostRead idx s)
  | .write idx v => hostWrite idx v s
  | .reset => .next (resetEvent s)
  | .engine => engineStep s
  | .wait => .next (hostWait s)

end Sys2Proof.Machine
end

