-- ==== Sys2Proof/Machine/Step.lean ====
section
/-! DEFINITION. One step: the next event, or the engine's step when none is pending (R50, R256). -/

namespace Sys2Proof.Machine

/-- One atomic step (R256): the next pending event; with none pending the engine goes on by itself (its progress, R256).
Parameters outside their constraints are no configuration of this hardware (U17). -/
def step (s : State) : Host.Outcome State Fault Refusal :=
  if s.cfg.wf then
    match s.events with
    | [] => engineStep s
    | e :: es => runEvent e { s with events := es }
  else .refused .notAConfiguration

/-- The state in which the very next step is the host's write of that word to CMD (R190), the one way a command comes to run (log 3). -/
def State.withFetchWord (s : State) (nbits w : Nat) : State :=
  { s with events := .write (indexOf .cmd) (w % 2 ^ nbits) :: s.events }

end Sys2Proof.Machine
end

