-- ==== Sys2Proof/Machine/Script.lean ====
section
/-! DEFINITION. The host script notation (R64, R65): lines and the events they stand for. -/

namespace Sys2Proof.Machine

/-- The lines of a host script (R64) and its pseudo-lines (R65). -/
inductive Line where
  /-- `WR <reg>, <value>`. -/
  | wr (x : Reg) (v : Nat)
  /-- `RD <reg>`. -/
  | rd (x : Reg)
  /-- GENKEY, ENC, DEC, SPLIT, JOIN. -/
  | command (i : Instr)
  /-- `WAIT`. -/
  | wait
  /-- `RESET`. -/
  | reset
deriving DecidableEq, Repr

/-- A line that R64 allows: the register it names stands in the map of R63. Other lines are no lines of a host script (log 15). -/
def lineWf (c : Config) : Line → Bool
  | .wr x _ => regNamed c x
  | .rd x => regNamed c x
  | .command _ => true
  | .wait => true
  | .reset => true

/-- The event a line stands for (R64, R65). Of a line that is not well formed see log 15. -/
def lineEvent : Line → Event
  | .wr x v => .write (indexOf x) v
  | .rd x => .read (indexOf x)
  | .command i => .write (indexOf .cmd) (encode i).toNat
  | .wait => .wait
  | .reset => .reset

/-- A script as pending events, its lines in order. Engine turns may stand between any two lines (R64); `events` holds them too. -/
def script (ls : List Line) : List Event := ls.map lineEvent

end Sys2Proof.Machine
end

