-- ==== Sys2Proof/Machine/ClosedForm.lean ====
section
/-! DEFINITION. ENC and DEC as plain functions (R151), beside the step machine and not called by it. -/

namespace Sys2Proof.Machine

/-- The working values of a run of the rounds: the pair (l, r), and the last round's F and T. -/
structure Halves where
  l : Nat
  r : Nat
  f : Nat
  t : Nat
deriving DecidableEq, Repr

/-- `inv0(r)` of R151. None: r is not 0 and shares a factor with p, where the run faults NotInvertible. -/
def inv0 (r p : Nat) : Option Nat :=
  if r = 0 then some 0 else if invertible r p then some (modinv r p) else none

/-- The rounds of R151 over the round keys in the order of their use; the halves swap after every round but the last. -/
def rounds (d : Dir) (p : Nat) : List Nat → Halves → Option Halves
  | [], h => some h
  | k :: ks, h =>
    match inv0 h.r p with
    | none => none
    | some f =>
      let t := modAdd f k p
      let l := accumulate d h.l t p
      match ks with
      | [] => some { l := l, r := h.r, f := f, t := t }
      | k2 :: ks2 => rounds d p (k2 :: ks2) { l := h.r, r := l, f := f, t := t }

/-- The round keys in the order of their use (R143): forwards for ENC, backwards for DEC. -/
def keyOrder (d : Dir) (rk : List Nat) : List Nat :=
  match d with
  | .enc => rk
  | .dec => rk.reverse

/-- The working values at the end of the rounds for a value v (R151). `f0`, `t0` are F and T before the first round. -/
def cipherHalves (d : Dir) (p : Nat) (rk : List Nat) (v f0 t0 : Nat) : Option Halves :=
  rounds d p (keyOrder d rk) { l := v / p, r := v % p, f := f0, t := t0 }

/-- `Enc(v)` and `Dec(v)` of R151. None: some round meets a half that has no inverse. -/
def cipher (d : Dir) (p : Nat) (rk : List Nat) (v : Nat) : Option Nat :=
  (cipherHalves d p rk v 0 0).map fun h => h.l * p + h.r

/-- The command of a direction (R140, R141). -/
def commandOf : Dir → Instr
  | .enc => .enc
  | .dec => .dec

/-- The direction that undoes a direction (R152). -/
def undoing : Dir → Dir
  | .enc => .dec
  | .dec => .enc

end Sys2Proof.Machine
end

