-- ==== Sys2Proof/Safety.lean ====
section
/-! DEFINITION. What claims are stated in: the invariant of the machine (register widths, the key invariant R26, the range invariants R148,
what each phase is entered with), the states a run reaches, and the hardware's part of a state. -/

namespace Sys2Proof.Machine

/-- The hardware's part of a state: the build parameters and the registers of R10, with the outside world's fields blank. -/
def hardware (s : State) : State := { s with events := [], reads := [], busyReads := 0 }

/-- Every register holds a number of its width, and there are ROUNDS round keys (R10, R12). -/
structure Fits (s : State) : Prop where
  p : s.p < 2 ^ s.cfg.w
  rkLength : s.rk.length = s.cfg.rounds
  rk : ∀ k ∈ s.rk, k < 2 ^ s.cfg.w
  v : s.v < 2 ^ s.cfg.vw
  l : s.l < 2 ^ s.cfg.vw
  r : s.r < 2 ^ s.cfg.w
  f : s.f < 2 ^ s.cfg.w
  t : s.t < 2 ^ s.cfg.w
  rnd : s.rnd ≤ s.cfg.rounds
  seed : s.seed < 2 ^ s.cfg.seedBits

/-- What R26 says of the modulus: positive, odd, tested at some seed, and of W bits when FORCE_TOP_LOW. It need not be prime. -/
structure GoodModulus (s : State) : Prop where
  pos : 0 < s.p
  odd : s.p % 2 = 1
  tested : ∃ x, x < 2 ^ s.cfg.seedBits ∧ primeTest s.p s.cfg.certainty x = true
  full : s.cfg.forceTopLow = true → 2 ^ (s.cfg.w - 1) ≤ s.p

/-- What a candidate has from its draw (R101). -/
def DrawnCandidate (s : State) : Prop :=
  s.cfg.forceTopLow = true → s.p % 2 = 1 ∧ 2 ^ (s.cfg.w - 1) ≤ s.p

/-- A GENKEY is running: no key, its byte in CMDR (R121). -/
def InGenkey (s : State) : Prop := s.keyvalid = false ∧ s.cmdr = encode .genkey

/-- An ENC or DEC is in the round RND: the right half is a residue, the left half too once a round has passed (R148). -/
def InRound (s : State) : Prop :=
  s.keyvalid = true ∧ (s.cmdr = encode .enc ∨ s.cmdr = encode .dec) ∧ s.rnd < s.cfg.rounds ∧ s.r < s.p ∧ (0 < s.rnd → s.l < s.p)

/-- What holds in each phase (R192, R148). -/
def PhaseFacts (s : State) : Prop :=
  match s.phase with
  | .idle => s.keyvalid = false → s.p = 0 ∧ s.rk = List.replicate s.cfg.rounds 0
  | .fault => True
  | .gDraw => InGenkey s ∧ s.rnd = 0
  | .gTest => InGenkey s ∧ s.rnd = 0 ∧ DrawnCandidate s
  | .gCheck => InGenkey s ∧ s.rnd = 0 ∧ DrawnCandidate s ∧ primeTest s.p s.cfg.certainty s.seed = true
  | .gKey => InGenkey s ∧ s.rnd < s.cfg.rounds ∧ GoodModulus s ∧ ∀ k ∈ s.rk.take s.rnd, k < s.p
  | .split => s.keyvalid = true ∧ (s.cmdr = encode .enc ∨ s.cmdr = encode .dec ∨ s.cmdr = encode .split) ∧ s.rnd = 0
  | .f => InRound s
  | .t => InRound s ∧ s.f < s.p
  | .acc => InRound s ∧ s.t < s.p
  | .swap => InRound s ∧ s.l < s.p
  | .join => s.keyvalid = true ∧
      ((s.cmdr = encode .enc ∨ s.cmdr = encode .dec) ∧ s.rnd = s.cfg.rounds ∧ s.l < s.p ∧ s.r < s.p ∨ s.cmdr = encode .join ∧ s.rnd = 0)

/-- The invariant of the machine. It says nothing of the outside world's fields: any pending events are allowed. -/
structure Invariant (s : State) : Prop where
  cfg : s.cfg.wf
  fits : Fits s
  /-- `ERR != 0` exactly when PHASE = FAULT (R24). -/
  errPhase : s.err = 0 ↔ s.phase ≠ .fault
  /-- Codes 7 to 15 are never produced (R211). -/
  errCode : s.err.toNat ≤ 6
  /-- DONE is 1 only in IDLE, with a key (R23, R25). -/
  done : s.done = true → s.phase = .idle ∧ s.keyvalid = true
  /-- The key invariant (R26). -/
  key : s.keyvalid = true → GoodModulus s ∧ ∀ k ∈ s.rk, k < s.p
  phase : PhaseFacts s

/-- The states that runs from reset reach in a configuration, whatever the host and the interleaving (R50, R256). -/
inductive Reachable (c : Config) : State → Prop where
  | reset (es : List Event) : c.wf → Reachable c { State.resetOf c with events := es }
  | step {s s1 : State} : Reachable c s → Sys2Proof.Machine.step s = .next s1 → Reachable c s1

/-- The next step is a write to CMD in phase IDLE: the command accept (R191). -/
def AcceptsByte (s : State) (b : Byte) : Prop :=
  s.phase = .idle ∧ ∃ v es, s.events = .write 0x00 v :: es ∧ BitVec.ofNat 8 v = b

/-- The next step is a host write to an index in phase IDLE. -/
def HostWrites (s : State) (idx : Byte) : Prop := s.phase = .idle ∧ ∃ v es, s.events = .write idx v :: es

/-- The next step is the engine's: no event is pending, or its turn comes first. -/
def EngineTurn (s : State) : Prop := s.events = [] ∨ ∃ es, s.events = .engine :: es

end Sys2Proof.Machine
end

