-- ==== Sys2Proof/Certificates/Slice0/Obligations.lean ====
section
/-! DEFINITION. The statements for the provers, in the order of the spec's files. Each docstring names the rules it rests on. -/

open Sys2Proof Sys2Proof.Machine

/-! ## Parameters and reset (00_scope.md, 10_state.md, 70_reset_and_hazards.md) -/

/-- R9: no step changes a build parameter. -/
def Obligations.NoStepChangesABuildParameter : Prop :=
  ∀ s t : State, step s = .next t → t.cfg = s.cfg

/-- R29, R241: the reset value of every register, in every configuration; STATUS reads 0x00. -/
def Obligations.ResetStateIsAsTabled : Prop :=
  ∀ c : Config, ∃ s, State.resetOf c = s ∧ s.p = 0 ∧ s.rk.length = c.rounds ∧ (∀ i, i < c.rounds → s.rk[i]? = some 0) ∧
    s.keyvalid = false ∧ s.v = 0 ∧ s.l = 0 ∧ s.r = 0 ∧ s.f = 0 ∧ s.t = 0 ∧ s.rnd = 0 ∧ s.phase = .idle ∧ s.cmdr = 0x00 ∧
    s.seed = c.seed0 ∧ s.done = false ∧ s.err = 0 ∧ status s = 0x00 ∧ s.cfg = c

/-- R240: the reset event gives the reset state from any state, in any phase. That the later events stay pending and that what the host has
read stays is the model's choice, not the spec's (DESIGN CHOICE, log 2). -/
def Obligations.ResetEventReplacesTheWholeState : Prop :=
  ∀ (s : State) (es : List Event), s.cfg.wf → s.events = .reset :: es →
    ∃ t, step s = .next t ∧ hardware t = State.resetOf s.cfg ∧ t.events = es ∧ t.reads = s.reads

/-- The invariant holds right after reset, in every configuration and with any pending events, and of `State.reset` itself. -/
def Obligations.InvariantHoldsAtReset : Prop :=
  (∀ (c : Config) (es : List Event), c.wf → Invariant { State.resetOf c with events := es }) ∧ Invariant State.reset

/-- The invariant (register widths, the key invariant, the range invariants, what each phase is entered with) is kept by every step,
from every state that has it and whatever event comes. -/
def Obligations.EveryStepKeepsTheInvariant : Prop :=
  ∀ s t : State, Invariant s → step s = .next t → Invariant t

/-- R193: from a state with the invariant a step is never stuck: it answers a next state, never a stop of the model. -/
def Obligations.NoStepIsStuck : Prop :=
  ∀ s : State, Invariant s → ∃ t, step s = .next t

/-- R26: the key invariant of every reachable state. -/
def Obligations.KeyInvariantOfReachableStates : Prop :=
  ∀ (c : Config) (s : State), Reachable c s → s.keyvalid = true →
    0 < s.p ∧ s.p % 2 = 1 ∧ s.p < 2 ^ c.w ∧ (∃ x, x < 2 ^ c.seedBits ∧ primeTest s.p c.certainty x = true) ∧
    s.rk.length = c.rounds ∧ (∀ i, i < c.rounds → s.rk.getD i 0 < s.p) ∧ (c.forceTopLow = true → 2 ^ (c.w - 1) ≤ s.p)

/-- R25: the layout of STATUS, that it is read in every phase and cannot be written, its reset value, and that at most one of
BUSY, DONE and FAULT is 1. The list `reads` is where the model keeps what the host is given (log 9). -/
def Obligations.StatusIsTheTabledView : Prop :=
  (∀ s : State, ((status s).getLsbD 0 = true ↔ s.phase ≠ .idle ∧ s.phase ≠ .fault) ∧ (status s).getLsbD 1 = s.done ∧
    (status s).getLsbD 2 = s.keyvalid ∧ ((status s).getLsbD 3 = true ↔ s.phase = .fault) ∧ (status s).extractLsb' 4 4 = s.err) ∧
  (∀ (s : State) (es : List Event), s.cfg.wf → s.events = .read 0x01 :: es →
    step s = .next { s with events := es, reads := (status s).toNat :: s.reads }) ∧
  (∀ (s : State) (v : Nat) (es : List Event), s.cfg.wf → s.events = .write 0x01 v :: es → step s = .next { s with events := es }) ∧
  (∀ c : Config, status (State.resetOf c) = 0x00) ∧
  (∀ s : State, Invariant s → ¬ (busy s = true ∧ s.done = true) ∧ ¬ (busy s = true ∧ faulted s = true) ∧ ¬ (s.done = true ∧ faulted s = true))

/-- R30: the write permissions. A register that a step changes is changed by a rule of its row, to the value the row gives; a reset gives
every register its reset value. -/
def Obligations.RegistersAreWrittenByTheirRowsOnly : Prop :=
  ∀ s t : State, step s = .next t →
    (s.events.head? = some .reset → hardware t = State.resetOf s.cfg) ∧
    (s.events.head? ≠ some .reset →
      (t.p ≠ s.p → AcceptsByte s 0x01 ∧ t.p = 0 ∨ EngineTurn s ∧ s.phase = .gDraw) ∧
      (t.rk ≠ s.rk → AcceptsByte s 0x01 ∧ t.rk = List.replicate s.cfg.rounds 0 ∨ EngineTurn s ∧ s.phase = .gKey) ∧
      (t.keyvalid ≠ s.keyvalid → AcceptsByte s 0x01 ∧ t.keyvalid = false ∨
        EngineTurn s ∧ s.phase = .gKey ∧ s.rnd + 1 = s.cfg.rounds ∧ t.keyvalid = true) ∧
      (t.v ≠ s.v → HostWrites s 0x03 ∨ EngineTurn s ∧ s.phase = .join) ∧
      (t.l ≠ s.l → HostWrites s 0x04 ∨ EngineTurn s ∧ (s.phase = .split ∨ s.phase = .acc ∨ s.phase = .swap)) ∧
      (t.r ≠ s.r → HostWrites s 0x05 ∨ EngineTurn s ∧ (s.phase = .split ∨ s.phase = .swap)) ∧
      (t.f ≠ s.f → EngineTurn s ∧ s.phase = .f) ∧
      (t.t ≠ s.t → EngineTurn s ∧ s.phase = .t) ∧
      (t.rnd ≠ s.rnd → HostWrites s 0x00 ∧ t.rnd = 0 ∨ EngineTurn s ∧ (s.phase = .swap ∨ s.phase = .gKey)) ∧
      (t.phase ≠ s.phase → HostWrites s 0x00 ∨ EngineTurn s ∧ busy s = true) ∧
      (t.cmdr ≠ s.cmdr → AcceptsByte s t.cmdr) ∧
      (t.seed ≠ s.seed → HostWrites s 0x02 ∨ EngineTurn s ∧ (s.phase = .gDraw ∨ s.phase = .gKey)) ∧
      (t.done ≠ s.done → HostWrites s 0x00 ∧ t.done = false ∨ EngineTurn s ∧ t.done = true ∧ t.phase = .idle) ∧
      (t.err ≠ s.err → t.phase = .fault))

/-- R22, R88: SEED under the engine. A step that draws advances it by exactly 1, no other engine step writes it, and it never wraps. -/
def Obligations.SeedAdvancesByOnePerDraw : Prop :=
  ∀ s t : State, engineStep s = .next t → s.seed < 2 ^ s.cfg.seedBits →
    t.seed < 2 ^ s.cfg.seedBits ∧
    (((s.phase = .gDraw ∨ s.phase = .gKey) ∧ s.seed ≠ 2 ^ s.cfg.seedBits - 1 → t.seed = s.seed + 1) ∧
     (¬ (s.phase = .gDraw ∨ s.phase = .gKey) ∨ s.seed = 2 ^ s.cfg.seedBits - 1 → t.seed = s.seed))

/-! ## Host access (20_memory.md, 30_encoding.md) -/

/-- R62: the opcode map. The five tabled bytes are the five commands, every other byte is rejected, and writing such a byte to CMD in phase
IDLE raises IllegalCommand. -/
def Obligations.OpcodeMapIsComplete : Prop :=
  (∀ b : Byte, (decode b = .ok .genkey ↔ b = 0x01) ∧ (decode b = .ok .enc ↔ b = 0x02) ∧ (decode b = .ok .dec ↔ b = 0x03) ∧
    (decode b = .ok .split ↔ b = 0x04) ∧ (decode b = .ok .join ↔ b = 0x05)) ∧
  (∀ b : Byte, b.toNat = 0 ∨ 6 ≤ b.toNat → (∃ e, decode b = .error e) ∧
    ∀ (s : State) (v : Nat) (es : List Event), s.cfg.wf → s.phase = .idle → s.events = .write 0x00 v :: es → v % 256 = b.toNat →
      step s = .next { s with events := es, cmdr := b, done := false, err := 3, phase := .fault })

/-- The words of R62's table, written out: each decodes to its command, and the encoder gives them back. A sanity check of the decoder. -/
def Obligations.TabledWordsDecodeAndEncode : Prop :=
  decode 0b00000001#8 = .ok .genkey ∧ decode 0b00000010#8 = .ok .enc ∧ decode 0b00000011#8 = .ok .dec ∧
  decode 0b00000100#8 = .ok .split ∧ decode 0b00000101#8 = .ok .join ∧
  encode .genkey = 0b00000001#8 ∧ encode .enc = 0b00000010#8 ∧ encode .dec = 0b00000011#8 ∧
  encode .split = 0b00000100#8 ∧ encode .join = 0b00000101#8

/-- Decode and encode agree in both directions, over all bytes and all commands. -/
def Obligations.DecodeInvertsEncode : Prop :=
  ∀ (b : Byte) (i : Instr), decode b = .ok i ↔ b = encode i

/-- A step whose event is the write of a command's byte to CMD is that command's meaning, in the state that holds the later events;
above bit 7 the value is not looked at (R43, R60). -/
def Obligations.StepRunsTheDecodedCommand : Prop :=
  ∀ (s : State) (i : Instr) (v : Nat) (es : List Event), s.cfg.wf → s.events = .write 0x00 v :: es →
    decode (BitVec.ofNat 8 v) = .ok i → step s = exec i { s with events := es }

/-- R42: what a read gives and that it changes no register: a register by its index (R63), 0 at a reserved index, and while busy,
STATUS apart, some value below 2^width. The list `reads` is where the model keeps what the host is given (log 9). -/
def Obligations.HostReadGivesTheIndexedRegister : Prop :=
  ∀ (s : State) (idx : Byte) (es : List Event), s.cfg.wf → s.events = .read idx :: es →
    (idx = 0x01 → step s = .next { s with events := es, reads := (status s).toNat :: s.reads }) ∧
    (busy s = false → idx ≠ 0x01 → ∃ x, step s = .next { s with events := es, reads := x :: s.reads } ∧
      (idx = 0x00 → x = s.cmdr.toNat) ∧ (idx = 0x02 → x = s.seed) ∧ (idx = 0x03 → x = s.v) ∧ (idx = 0x04 → x = s.l) ∧
      (idx = 0x05 → x = s.r) ∧ (idx = 0x06 → x = s.p) ∧ (idx = 0x07 → x = s.f) ∧ (idx = 0x08 → x = s.t) ∧ (idx = 0x09 → x = s.rnd) ∧
      (∀ i, i < s.cfg.rounds → idx.toNat = 0x80 + i → x = s.rk.getD i 0) ∧
      (0x0A ≤ idx.toNat → idx.toNat < 0x80 → x = 0) ∧
      (0x80 + s.cfg.rounds ≤ idx.toNat → x = 0)) ∧
    (busy s = true → idx ≠ 0x01 → ∃ t x, step s = .next t ∧ hardware t = hardware s ∧ t.events = es ∧ t.reads = x :: s.reads ∧
      (idx = 0x00 → x < 2 ^ 8) ∧ (idx = 0x02 → x < 2 ^ s.cfg.seedBits) ∧ (idx = 0x03 ∨ idx = 0x04 → x < 2 ^ s.cfg.vw) ∧
      (5 ≤ idx.toNat → idx.toNat ≤ 8 → x < 2 ^ s.cfg.w) ∧ (idx = 0x09 → ∀ n, s.cfg.rounds < 2 ^ n → x < 2 ^ n) ∧
      (∀ i, i < s.cfg.rounds → idx.toNat = 0x80 + i → x < 2 ^ s.cfg.w))

/-- R43: what a write does: dropped outside IDLE; in IDLE the accept, a truncated operand register, or nothing. -/
def Obligations.HostWriteActsByIndexAndPhase : Prop :=
  ∀ (s : State) (idx : Byte) (v : Nat) (es : List Event), s.cfg.wf → s.events = .write idx v :: es →
    (s.phase ≠ .idle → step s = .next { s with events := es }) ∧
    (s.phase = .idle →
      (idx = 0x00 → step s = writeCmd (BitVec.ofNat 8 v) { s with events := es }) ∧
      (idx = 0x02 → step s = .next { s with events := es, seed := v % 2 ^ s.cfg.seedBits }) ∧
      (idx = 0x03 → step s = .next { s with events := es, v := v % 2 ^ s.cfg.vw }) ∧
      (idx = 0x04 → step s = .next { s with events := es, l := v % 2 ^ s.cfg.vw }) ∧
      (idx = 0x05 → step s = .next { s with events := es, r := v % 2 ^ s.cfg.w }) ∧
      (idx = 0x01 ∨ 6 ≤ idx.toNat → step s = .next { s with events := es }))

/-- R45: while busy no host access touches the hardware, and a read of STATUS shows BUSY = 1. The list `reads` is where the model keeps
what the host is given (log 9). -/
def Obligations.BusyEngineIsUndisturbed : Prop :=
  ∀ (s : State) (idx : Byte) (v : Nat) (es : List Event), s.cfg.wf → busy s = true →
    (s.events = .write idx v :: es → step s = .next { s with events := es }) ∧
    (s.events = .read idx :: es → ∃ t, step s = .next t ∧ hardware t = hardware s ∧ t.events = es ∧
      ∃ x, t.reads = x :: s.reads ∧ (idx = 0x01 → x = (status s).toNat ∧ x % 2 = 1))

/-- A read after a write of an operand register in IDLE returns the written value, truncated to the register (20_memory.md section 6).
The list `reads` is where the model keeps what the host is given (log 9). -/
def Obligations.ReadAfterWriteReturnsTheTruncatedValue : Prop :=
  ∀ (s : State) (x : Reg) (v : Nat) (es : List Event), s.cfg.wf → s.phase = .idle → x = .seed ∨ x = .v ∨ x = .l ∨ x = .r →
    s.events = script [.wr x v, .rd x] ++ es →
    ∃ t, Host.Core.run Sys2Proof.core 2 s = .next t ∧ t.reads = (v % 2 ^ regWidth s.cfg x) :: s.reads ∧ t.events = es ∧ t.phase = .idle

/-! ## Integer arithmetic and collaborators (40_collaborators.md) -/

/-- R82: modular addition on the exact sum, and modular subtraction as the residue r with r + b ≡ a. -/
def Obligations.ModularSumAndDifferenceAreResidues : Prop :=
  ∀ a b p : Nat, 0 < p → modAdd a b p = (a + b) % p ∧ modSub a b p < p ∧ (modSub a b p + b) % p = a % p ∧
    (∀ x, x < p → (x + b) % p = a % p → x = modSub a b p) ∧
    (a < b → b < p → modSub a b p = a + p - b) ∧ (b ≤ a → a < p → modSub a b p = a - b) ∧ modSub a a p = 0 ∧ modSub a 0 p = a % p

/-- R83: the modular inverse: its defining property, its uniqueness, and the properties the rule lists. -/
def Obligations.ModularInverseIsTheUniqueInverse : Prop :=
  ∀ a p : Nat, 0 < p → Nat.gcd a p = 1 →
    modinv a p < p ∧ (a * modinv a p) % p = 1 % p ∧ (∀ x, x < p → (a * x) % p = 1 % p → x = modinv a p) ∧
    modinv a p = modinv (a % p) p ∧ (1 < p → modinv a p ≠ 0 ∧ modinv (modinv a p) p = a % p) ∧
    modinv 1 p = 1 % p ∧ (1 < p → modinv (p - 1) p = p - 1) ∧ modinv a 1 = 0

/-- R86, R87: the bounds of the two draw functions. -/
def Obligations.DrawsStayInTheirRanges : Prop :=
  (∀ seed n, randBits seed n < 2 ^ n) ∧ (∀ seed bound, 0 < bound → randBelow seed bound < bound)

/-! ## Prime acquisition and the round-key scheduler (41_prime_generator.md, 42_key_scheduler.md) -/

/-- R101: step G_DRAW, with the candidate said bit by bit. -/
def Obligations.StepGDrawDrawsACandidate : Prop :=
  ∀ s : State, s.cfg.wf → s.phase = .gDraw →
    (s.seed = 2 ^ s.cfg.seedBits - 1 → engineStep s = .next { s with err := 6, phase := .fault }) ∧
    (s.seed ≠ 2 ^ s.cfg.seedBits - 1 → ∃ c, engineStep s = .next { s with seed := s.seed + 1, p := c, phase := .gTest } ∧ c < 2 ^ s.cfg.w ∧
      (s.cfg.forceTopLow = false → c = randBits (s.seed + 1) s.cfg.w) ∧
      (s.cfg.forceTopLow = true → c % 2 = 1 ∧ 2 ^ (s.cfg.w - 1) + 1 ≤ c ∧
        ∀ i, c.testBit i = true ↔ i = 0 ∨ i = s.cfg.w - 1 ∨ (randBits (s.seed + 1) s.cfg.w).testBit i = true))

/-- R102: step G_TEST moves PHASE and nothing else; a prime candidate always passes (R90, property 1). -/
def Obligations.StepGTestMovesThePhaseOnly : Prop :=
  ∀ s : State, s.phase = .gTest →
    (primeTest s.p s.cfg.certainty s.seed = true → engineStep s = .next { s with phase := .gCheck }) ∧
    (primeTest s.p s.cfg.certainty s.seed = false → engineStep s = .next { s with phase := .gDraw }) ∧
    (Nat.Prime s.p → engineStep s = .next { s with phase := .gCheck })

/-- R103's bound: the prime loop ends after at most 2^SEED_BITS - 1 - SEED attempts, each two steps, in an accepted candidate or, with SEED
at its maximum, in SeedOverflow. -/
def Obligations.PrimeLoopEndsByTheSeedBound : Prop :=
  ∀ s : State, Invariant s → s.phase = .gDraw →
    ∃ n t, n ≤ 2 * (2 ^ s.cfg.seedBits - 1 - s.seed) + 1 ∧ engineRun n s = .next t ∧
      (t.phase = .gCheck ∧ primeTest t.p t.cfg.certainty t.seed = true ∨ t.phase = .fault ∧ t.err = 6 ∧ t.seed = 2 ^ s.cfg.seedBits - 1)

/-- R121: GENKEY's accept. -/
def Obligations.GenkeyAcceptDestroysTheKey : Prop :=
  ∀ s : State, s.phase = .idle →
    exec .genkey s = .next { s with cmdr := 0x01, done := false, rnd := 0, keyvalid := false, p := 0,
                                    rk := List.replicate s.cfg.rounds 0, phase := .gDraw }

/-- R122: step G_CHECK. With forced bits it cannot fault. -/
def Obligations.StepGCheckRejectsZeroAndEven : Prop :=
  ∀ s : State, s.phase = .gCheck →
    (s.p = 0 ∨ s.p % 2 = 0 → engineStep s = .next { s with err := 2, phase := .fault }) ∧
    (s.p ≠ 0 → s.p % 2 = 1 → engineStep s = .next { s with phase := .gKey }) ∧
    (Invariant s → s.cfg.forceTopLow = true → engineStep s = .next { s with phase := .gKey })

/-- R123: step G_KEY: one key below P, drawn with its own seed, and completion at the last. -/
def Obligations.StepGKeyDrawsOneRoundKey : Prop :=
  ∀ s : State, s.phase = .gKey → 0 < s.p → s.rnd < s.cfg.rounds → s.rk.length = s.cfg.rounds →
    (s.seed = 2 ^ s.cfg.seedBits - 1 → engineStep s = .next { s with err := 6, phase := .fault }) ∧
    (s.seed ≠ 2 ^ s.cfg.seedBits - 1 → ∃ rk, rk.length = s.cfg.rounds ∧ rk.getD s.rnd 0 = randBelow (s.seed + 1) s.p ∧
      rk.getD s.rnd 0 < s.p ∧ (∀ i, i ≠ s.rnd → rk.getD i 0 = s.rk.getD i 0) ∧
      (s.rnd + 1 = s.cfg.rounds →
        engineStep s = .next { s with seed := s.seed + 1, rk := rk, rnd := s.rnd + 1, keyvalid := true, done := true, phase := .idle }) ∧
      (s.rnd + 1 ≠ s.cfg.rounds → engineStep s = .next { s with seed := s.seed + 1, rk := rk, rnd := s.rnd + 1 }))

/-- R124: with a key in the slot, no step but a GENKEY accept or a reset writes P, any RK[i] or KEYVALID. -/
def Obligations.KeyIsImmutableBetweenGenkeys : Prop :=
  ∀ s t : State, Invariant s → s.keyvalid = true → s.events.head? ≠ some .reset → ¬ AcceptsByte s 0x01 → step s = .next t →
    t.p = s.p ∧ t.rk = s.rk ∧ t.keyvalid = true

/-- R125: the end state of a GENKEY whose a-th candidate is the first that passes: after the accept, 2a steps of the prime loop,
G_CHECK and ROUNDS key draws, with every register as the rule lists it. -/
def Obligations.GenkeyEndsWithTheKeyOfItsSeeds : Prop :=
  ∀ (s : State) (a p : Nat), Invariant s → s.phase = .idle → 1 ≤ a → s.seed + a + s.cfg.rounds ≤ 2 ^ s.cfg.seedBits - 1 →
    (∀ j, 1 ≤ j → j < a →
      primeTest (candidate s.cfg (randBits (s.seed + j) s.cfg.w)) s.cfg.certainty (s.seed + j) = false) →
    p = candidate s.cfg (randBits (s.seed + a) s.cfg.w) → primeTest p s.cfg.certainty (s.seed + a) = true → p % 2 = 1 →
    ∃ t, exec .genkey s = .next t ∧
      engineRun (2 * a + 1 + s.cfg.rounds) t = .next { s with
        cmdr := 0x01, p := p, rk := (List.range s.cfg.rounds).map (fun i => randBelow (s.seed + a + 1 + i) p),
        seed := s.seed + a + s.cfg.rounds, rnd := s.cfg.rounds, keyvalid := true, done := true, phase := .idle,
        err := 0 }

/-- R125, the other direction: every GENKEY that completes, whenever it does, has made some number a of attempts of which only the last passed,
within the seed's range, and ends as the rule lists. -/
def Obligations.EveryCompletedGenkeyEndsAsListed : Prop :=
  ∀ (s t u : State) (n : Nat), Invariant s → s.phase = .idle → exec .genkey s = .next t → engineRun n t = .next u → u.phase = .idle →
    ∃ a p, 1 ≤ a ∧ s.seed + a + s.cfg.rounds ≤ 2 ^ s.cfg.seedBits - 1 ∧ p = candidate s.cfg (randBits (s.seed + a) s.cfg.w) ∧
      (∀ j, 1 ≤ j → j < a →
        primeTest (candidate s.cfg (randBits (s.seed + j) s.cfg.w)) s.cfg.certainty (s.seed + j) = false) ∧
      primeTest p s.cfg.certainty (s.seed + a) = true ∧ p % 2 = 1 ∧ 0 < p ∧
      u = { s with
        cmdr := 0x01, p := p, rk := (List.range s.cfg.rounds).map (fun i => randBelow (s.seed + a + 1 + i) p),
        seed := s.seed + a + s.cfg.rounds, rnd := s.cfg.rounds, keyvalid := true, done := true, phase := .idle,
        err := 0 }

/-! ## The round engine (43_feistel_engine.md) -/

/-- R142: step F, the inverse said by its property. -/
def Obligations.StepFInvertsTheRightHalf : Prop :=
  ∀ s : State, s.phase = .f → 0 < s.p →
    (s.r = 0 → engineStep s = .next { s with f := 0, phase := .t }) ∧
    (s.r ≠ 0 → Nat.gcd s.r s.p ≠ 1 → engineStep s = .next { s with err := 1, phase := .fault }) ∧
    (s.r ≠ 0 → Nat.gcd s.r s.p = 1 → ∃ x, x < s.p ∧ (s.r * x) % s.p = 1 % s.p ∧ engineStep s = .next { s with f := x, phase := .t }) ∧
    (Nat.Prime s.p → 0 < s.r → s.r < s.p → ∃ x, x < s.p ∧ (s.r * x) % s.p = 1 ∧ engineStep s = .next { s with f := x, phase := .t })

/-- R143: step T: the key index runs forwards for ENC and backwards for DEC. -/
def Obligations.StepTAddsTheRoundKey : Prop :=
  ∀ s : State, s.phase = .t → 0 < s.p → s.rnd < s.cfg.rounds → s.rk.length = s.cfg.rounds →
    (s.cmdr.extractLsb' 0 4 = 2 → engineStep s = .next { s with t := (s.f + s.rk.getD s.rnd 0) % s.p, phase := .acc }) ∧
    (s.cmdr.extractLsb' 0 4 = 3 →
      engineStep s = .next { s with t := (s.f + s.rk.getD (s.cfg.rounds - 1 - s.rnd) 0) % s.p, phase := .acc })

/-- R144: step ACC: ENC adds, DEC subtracts; the result is a residue whatever L was. -/
def Obligations.StepAccUpdatesTheLeftHalf : Prop :=
  ∀ s : State, s.phase = .acc → 0 < s.p →
    (s.cmdr.extractLsb' 0 4 = 2 → engineStep s = .next { s with l := (s.l + s.t) % s.p, phase := .swap }) ∧
    (s.cmdr.extractLsb' 0 4 = 3 → ∃ x, x < s.p ∧ (x + s.t) % s.p = s.l % s.p ∧ engineStep s = .next { s with l := x, phase := .swap })

/-- R145: step SWAP: it swaps unless last round, and counts the round. -/
def Obligations.StepSwapSwapsUnlessLastRound : Prop :=
  ∀ s : State, Invariant s → s.phase = .swap →
    (s.rnd ≠ s.cfg.rounds - 1 → engineStep s = .next { s with l := s.r, r := s.l, rnd := s.rnd + 1, phase := .f }) ∧
    (s.rnd = s.cfg.rounds - 1 → engineStep s = .next { s with rnd := s.cfg.rounds, phase := .join })

/-- The round function is a bijection of the residues when P is prime, and sends 0 and only 0 to 0 (derived in R146). -/
def Obligations.RoundFunctionIsABijectionForAPrime : Prop :=
  ∀ p : Nat, Nat.Prime p → inv0 0 p = some 0 ∧
    (∀ r, r < p → ∃ y, inv0 r p = some y ∧ y < p ∧ (y = 0 ↔ r = 0)) ∧
    (∀ y, y < p → ∃ r, r < p ∧ inv0 r p = some y ∧ ∀ r2, r2 < p → inv0 r2 p = some y → r2 = r)

/-- R148: the range invariants of a running ENC or DEC, in every reachable state. -/
def Obligations.HalvesStayResiduesDuringTheRounds : Prop :=
  ∀ (c : Config) (s : State), Reachable c s →
    (s.phase = .f → s.r < s.p ∧ (0 < s.rnd → s.l < s.p)) ∧
    (s.phase = .t ∨ s.phase = .acc → s.r < s.p ∧ (0 < s.rnd → s.l < s.p)) ∧
    (s.phase = .swap → s.l < s.p ∧ s.r < s.p) ∧
    (s.phase = .join → s.cmdr = 0x02 ∨ s.cmdr = 0x03 → s.l < s.p ∧ s.r < s.p ∧ s.rnd = c.rounds)

/-- R149: the JOIN step of an ENC or DEC never overflows, and its result is below P^2. -/
def Obligations.JoinOfACipherNeverOverflows : Prop :=
  ∀ s : State, Invariant s → s.phase = .join → s.cmdr = 0x02 ∨ s.cmdr = 0x03 →
    s.l * s.p + s.r < s.p ^ 2 ∧ engineStep s = .next { s with v := s.l * s.p + s.r, done := true, phase := .idle }

/-- ENC and DEC complete with the closed form's values, after exactly 2 + 4 * ROUNDS engine steps, every other register unchanged
(R140, R141, R151, R196, and the step count of R192). -/
def Obligations.EncAndDecCompleteWithTheClosedForm : Prop :=
  ∀ (s : State) (d : Dir) (h : Halves), Invariant s → s.phase = .idle → s.keyvalid = true →
    cipherHalves d s.p s.rk s.v s.f s.t = some h →
    ∃ t, exec (commandOf d) s = .next t ∧
      engineRun (2 + 4 * s.cfg.rounds) t = .next { s with
        cmdr := encode (commandOf d), v := h.l * s.p + h.r, l := h.l, r := h.r, f := h.f, t := h.t, rnd := s.cfg.rounds, done := true } ∧
      (∀ n, n < 2 + 4 * s.cfg.rounds → ∃ u, engineRun n t = .next u ∧ busy u = true)

/-- Where the closed form stops, the run faults NotInvertible, in an F step whose right half shares a factor with P, with V, the key and SEED
as they were (R151, R212, R221). The key need not be one that GENKEY can make: the statement also covers every composite modulus. -/
def Obligations.EncAndDecFaultWhereTheClosedFormStops : Prop :=
  ∀ (s : State) (d : Dir), s.cfg.wf → 0 < s.p → s.p < 2 ^ s.cfg.w → s.rk.length = s.cfg.rounds → s.phase = .idle → s.keyvalid = true →
    cipherHalves d s.p s.rk s.v s.f s.t = none →
    ∃ t u n, exec (commandOf d) s = .next t ∧ n < 2 + 4 * s.cfg.rounds ∧ engineRun n t = .next u ∧ u.phase = .fault ∧ u.err = 1 ∧
      u.r ≠ 0 ∧ Nat.gcd u.r u.p ≠ 1 ∧ u.rnd < s.cfg.rounds ∧ u.cmdr = encode (commandOf d) ∧ u.done = false ∧
      u.v = s.v ∧ u.p = s.p ∧ u.rk = s.rk ∧ u.keyvalid = true ∧ u.seed = s.seed

/-- R150: purity. Two states that agree on V, the key and the parameters end an ENC, or a DEC, with the same V, L, R, F, T and RND. -/
def Obligations.CipherDependsOnValueKeyAndDirectionOnly : Prop :=
  ∀ (s1 s2 t1 t2 u1 : State) (d : Dir), Invariant s1 → Invariant s2 → s1.phase = .idle → s2.phase = .idle → s1.keyvalid = true → s2.keyvalid = true →
    s1.cfg = s2.cfg → s1.v = s2.v → s1.p = s2.p → s1.rk = s2.rk → exec (commandOf d) s1 = .next t1 → exec (commandOf d) s2 = .next t2 →
    engineRun (2 + 4 * s1.cfg.rounds) t1 = .next u1 → u1.phase = .idle →
    ∃ u2, engineRun (2 + 4 * s2.cfg.rounds) t2 = .next u2 ∧ u2.phase = .idle ∧ u2.v = u1.v ∧ u2.l = u1.l ∧ u2.r = u1.r ∧ u2.f = u1.f ∧
      u2.t = u1.t ∧ u2.rnd = u1.rnd ∧ u1.seed = s1.seed ∧ u2.seed = s2.seed ∧ u1.p = s1.p ∧ u1.rk = s1.rk

/-- R152: the round trip. A completed ENC of a value below P^2 is undone by DEC, and a completed DEC by ENC; with a prime P every run
completes. -/
def Obligations.EncAndDecRoundTripBelowPSquared : Prop :=
  ∀ (s : State) (d : Dir), Invariant s → s.phase = .idle → s.keyvalid = true → s.v < s.p ^ 2 →
    (∀ t u, exec (commandOf d) s = .next t → engineRun (2 + 4 * s.cfg.rounds) t = .next u → u.phase = .idle →
      ∃ t2 u2, exec (commandOf (undoing d)) u = .next t2 ∧ engineRun (2 + 4 * s.cfg.rounds) t2 = .next u2 ∧
        u2.phase = .idle ∧ u2.done = true ∧ u2.v = s.v) ∧
    (Nat.Prime s.p → ∃ t u, exec (commandOf d) s = .next t ∧ engineRun (2 + 4 * s.cfg.rounds) t = .next u ∧ u.phase = .idle ∧ u.v < s.p ^ 2)

/-- R153: a value at or above P^2 is ciphered as the value with its quotient reduced, and does not come back. -/
def Obligations.OversizedValuesDoNotRoundTrip : Prop :=
  ∀ (d : Dir) (p v : Nat) (rk : List Nat), 0 < p → rk ≠ [] → p ^ 2 ≤ v →
    v / p % p * p + v % p < p ^ 2 ∧ cipher d p rk v = cipher d p rk (v / p % p * p + v % p) ∧
    (∀ c, cipher d p rk v = some c → cipher (undoing d) p rk c = some (v / p % p * p + v % p) ∧ v / p % p * p + v % p ≠ v)

/-- R154, with the spec's example values: a fixed point, the vector V1, and the value 200 of R153. -/
def Obligations.IdentityIsPossible : Prop :=
  cipher .enc 13 [5, 0, 12, 7] 42 = some 42 ∧ cipher .enc 13 [5, 0, 12, 7] 100 = some 23 ∧ cipher .dec 13 [5, 0, 12, 7] 23 = some 100 ∧
  cipher .enc 13 [5, 0, 12, 7] 200 = some 78 ∧ cipher .dec 13 [5, 0, 12, 7] 78 = some 31

/-! ## The pair codec (44_pair_codec.md) -/

/-- R170 and its step R171: SPLIT completes with the quotient and the remainder; without a key it takes NoKey. -/
def Obligations.SplitCompletesWithQuotientAndRemainder : Prop :=
  ∀ s : State, s.phase = .idle →
    (s.keyvalid = true → 0 < s.p → ∃ t l r, exec .split s = .next t ∧ l * s.p + r = s.v ∧ r < s.p ∧
      engineStep t = .next { s with cmdr := 0x04, rnd := 0, done := true, l := l, r := r }) ∧
    (s.keyvalid = false → exec .split s = .next { s with cmdr := 0x04, done := false, err := 4, phase := .fault })

/-- R172, R175 and their step R173: JOIN completes with the exact value when it fits, takes ValueOverflow with V unchanged when it does not,
and takes NoKey without a key. It checks no range (R176). -/
def Obligations.JoinCompletesOrOverflows : Prop :=
  ∀ s : State, s.phase = .idle →
    (s.keyvalid = true → s.l * s.p + s.r < 2 ^ s.cfg.vw → ∃ t, exec .join s = .next t ∧
      engineStep t = .next { s with cmdr := 0x05, rnd := 0, done := true, v := s.l * s.p + s.r }) ∧
    (s.keyvalid = true → 2 ^ s.cfg.vw ≤ s.l * s.p + s.r → ∃ t, exec .join s = .next t ∧
      engineStep t = .next { s with cmdr := 0x05, rnd := 0, done := false, err := 5, phase := .fault }) ∧
    (s.keyvalid = false → exec .join s = .next { s with cmdr := 0x05, done := false, err := 4, phase := .fault })

/-- R171: step SPLIT for each command that runs it. -/
def Obligations.StepSplitDividesByP : Prop :=
  ∀ s : State, s.phase = .split → 0 < s.p → ∃ l r, l * s.p + r = s.v ∧ r < s.p ∧
    (s.cmdr.extractLsb' 0 4 = 4 → engineStep s = .next { s with l := l, r := r, done := true, phase := .idle }) ∧
    (s.cmdr.extractLsb' 0 4 ≠ 4 → engineStep s = .next { s with l := l, r := r, phase := .f })

/-- R173: step JOIN, whatever the command. -/
def Obligations.StepJoinRebuildsTheValue : Prop :=
  ∀ s : State, s.phase = .join →
    (2 ^ s.cfg.vw ≤ s.l * s.p + s.r → engineStep s = .next { s with err := 5, phase := .fault }) ∧
    (s.l * s.p + s.r < 2 ^ s.cfg.vw → engineStep s = .next { s with v := s.l * s.p + s.r, done := true, phase := .idle })

/-- R174: SPLIT then JOIN leaves V; JOIN then SPLIT leaves a well-formed pair, and normalises any other. -/
def Obligations.SplitAndJoinAreInverse : Prop :=
  ∀ s : State, Invariant s → s.phase = .idle → s.keyvalid = true →
    (∃ t1 t2 t3 t4, exec .split s = .next t1 ∧ engineStep t1 = .next t2 ∧ exec .join t2 = .next t3 ∧ engineStep t3 = .next t4 ∧
      t4.phase = .idle ∧ t4.v = s.v) ∧
    (s.l * s.p + s.r < 2 ^ s.cfg.vw →
      ∃ t1 t2 t3 t4, exec .join s = .next t1 ∧ engineStep t1 = .next t2 ∧ exec .split t2 = .next t3 ∧ engineStep t3 = .next t4 ∧
        t4.phase = .idle ∧ t4.l = s.l + s.r / s.p ∧ t4.r = s.r % s.p ∧ (s.r < s.p → t4.l = s.l ∧ t4.r = s.r))

/-! ## Accept, sequencing and faults (45_command_dispatch.md, 60_exceptions.md) -/

/-- R191: the command accept, on the byte's two fields. -/
def Obligations.CommandAcceptActsAsStated : Prop :=
  ∀ (s : State) (v : Nat) (es : List Event) (b : Byte), s.cfg.wf → s.phase = .idle → s.events = .write 0x00 v :: es → b = BitVec.ofNat 8 v →
    (b.extractLsb' 4 4 ≠ 0 ∨ (b.extractLsb' 0 4).toNat = 0 ∨ 6 ≤ (b.extractLsb' 0 4).toNat →
      step s = .next { s with events := es, cmdr := b, done := false, err := 3, phase := .fault }) ∧
    (b.extractLsb' 4 4 = 0 → 2 ≤ (b.extractLsb' 0 4).toNat → (b.extractLsb' 0 4).toNat ≤ 5 → s.keyvalid = false →
      step s = .next { s with events := es, cmdr := b, done := false, err := 4, phase := .fault }) ∧
    (b.extractLsb' 4 4 = 0 → (b.extractLsb' 0 4).toNat = 1 →
      step s = .next { s with events := es, cmdr := b, done := false, rnd := 0, keyvalid := false, p := 0,
                              rk := List.replicate s.cfg.rounds 0, phase := .gDraw }) ∧
    (b.extractLsb' 4 4 = 0 → 2 ≤ (b.extractLsb' 0 4).toNat → (b.extractLsb' 0 4).toNat ≤ 4 → s.keyvalid = true →
      step s = .next { s with events := es, cmdr := b, done := false, rnd := 0, phase := .split }) ∧
    (b.extractLsb' 4 4 = 0 → (b.extractLsb' 0 4).toNat = 5 → s.keyvalid = true →
      step s = .next { s with events := es, cmdr := b, done := false, rnd := 0, phase := .join })

/-- Outside IDLE a command is dropped without trace (R190, R45, R46). -/
def Obligations.CommandsAreDroppedOutsideIdle : Prop :=
  ∀ (i : Instr) (s : State), s.phase ≠ .idle → exec i s = .next s

/-- The frame of the five commands' accept: no operand or working register, SEED, parameter or event changes; the key only by GENKEY;
RND is kept or cleared; ERR changes only with entry to FAULT. The fields `events`, `reads` and `busyReads` are the model's own (logs 2, 4, 9). -/
def Obligations.AcceptLeavesEverythingElseUnchanged : Prop :=
  ∀ (i : Instr) (s t : State), exec i s = .next t →
    t.v = s.v ∧ t.l = s.l ∧ t.r = s.r ∧ t.f = s.f ∧ t.t = s.t ∧ t.seed = s.seed ∧ t.cfg = s.cfg ∧ t.events = s.events ∧ t.reads = s.reads ∧
    t.busyReads = s.busyReads ∧ (i ≠ .genkey → t.p = s.p ∧ t.rk = s.rk ∧ t.keyvalid = s.keyvalid) ∧ (t.rnd = s.rnd ∨ t.rnd = 0) ∧
    (t.err ≠ s.err → t.phase = .fault) ∧ (t.cmdr ≠ s.cmdr → t.cmdr = encode i) ∧ (t.done ≠ s.done → t.done = false)

/-- The phases an engine step leads to are those of R192's table and no other, but for one pair: (idle, idle) is not in that table, because
no engine step is enabled in IDLE (R193); there the model's engine turn leaves the state as it is (DESIGN CHOICE, log 11), as it does in FAULT. -/
def Obligations.PhaseTransitionsAreTheTabledOnes : Prop :=
  ∀ s t : State, engineStep s = .next t →
    (s.phase, t.phase) ∈ ([(.idle, .idle), (.fault, .fault), (.gDraw, .gTest), (.gDraw, .fault), (.gTest, .gCheck), (.gTest, .gDraw),
      (.gCheck, .gKey), (.gCheck, .fault), (.gKey, .gKey), (.gKey, .idle), (.gKey, .fault), (.split, .idle), (.split, .f), (.f, .t),
      (.f, .fault), (.t, .acc), (.acc, .swap), (.swap, .f), (.swap, .join), (.join, .idle), (.join, .fault)] : List (Phase × Phase))

/-- R216, with the causes and codes of R211: a step that enters FAULT is one of the six cases, takes that case's code and writes ERR and PHASE
and nothing else; the accept also writes CMDR and DONE (R191, R221). Afterwards STATUS shows FAULT = 1, BUSY = 0, DONE = 0, the code, and
KEYVALID as it was. -/
def Obligations.FaultEntryIsPrecise : Prop :=
  ∀ s t : State, Invariant s → step s = .next t → s.phase ≠ .fault → t.phase = .fault →
    (EngineTurn s ∧ t = { s with events := s.events.tail, err := t.err, phase := .fault } ∧
        (t.err = 1 ∧ s.phase = .f ∧ s.r ≠ 0 ∧ Nat.gcd s.r s.p ≠ 1 ∨
         t.err = 2 ∧ s.phase = .gCheck ∧ (s.p = 0 ∨ s.p % 2 = 0) ∨
         t.err = 5 ∧ s.phase = .join ∧ s.cmdr = 0x05 ∧ 2 ^ s.cfg.vw ≤ s.l * s.p + s.r ∨
         t.err = 6 ∧ (s.phase = .gDraw ∨ s.phase = .gKey) ∧ s.seed = 2 ^ s.cfg.seedBits - 1) ∨
      ∃ b, AcceptsByte s b ∧ t = { s with events := s.events.tail, cmdr := b, done := false, err := t.err, phase := .fault } ∧
        (t.err = 3 ∧ ¬ (1 ≤ b.toNat ∧ b.toNat ≤ 5) ∨ t.err = 4 ∧ 2 ≤ b.toNat ∧ b.toNat ≤ 5 ∧ s.keyvalid = false)) ∧
    (status t).getLsbD 0 = false ∧ (status t).getLsbD 1 = false ∧ (status t).getLsbD 2 = s.keyvalid ∧ (status t).getLsbD 3 = true ∧
    (status t).extractLsb' 4 4 = t.err

/-- R222: in FAULT no step but reset changes the hardware: no command starts, no write lands, ERR and PHASE stay. Reset gives the reset state. -/
def Obligations.FaultIsStickyUntilReset : Prop :=
  ∀ s : State, s.cfg.wf → s.phase = .fault →
    (s.events.head? ≠ some .reset → ∃ t, step s = .next t ∧ hardware t = hardware s) ∧
    (s.events.head? = some .reset → ∃ t, step s = .next t ∧ hardware t = State.resetOf s.cfg)

/-! ## Interleaving and progress (70_reset_and_hazards.md) -/

/-- Every running command ends: within a number of engine steps bounded by the parameters the engine is idle with DONE = 1 or in FAULT
(R195, R256; for GENKEY the bound is that of SEED's width, R103). -/
def Obligations.EveryRunningCommandEnds : Prop :=
  ∀ s : State, Invariant s → busy s = true → ∃ n t, n ≤ 2 * 2 ^ s.cfg.seedBits + 4 * s.cfg.rounds + 2 ∧ engineRun n s = .next t ∧
    (t.phase = .idle ∧ t.done = true ∨ t.phase = .fault)

/-- The result of a command does not depend on the interleaving (R256): host reads and writes put anywhere among the engine's steps
leave the hardware as the engine's steps alone do. -/
def Obligations.InterleavingDoesNotChangeTheResult : Prop :=
  ∀ (s : State) (es more : List Event) (u : State), s.cfg.wf →
    (∀ e ∈ es, e = .engine ∨ (∃ idx, e = .read idx) ∨ ∃ idx v, e = .write idx v) →
    (∀ j, j ≤ es.count .engine → ∃ w, engineRun j s = .next w ∧ busy w = true) →
    engineRun (es.count .engine + 1) s = .next u →
    ∃ t, Host.Core.run Sys2Proof.core (es.length + 1) { s with events := es ++ .engine :: more } = .next t ∧
      hardware t = hardware u ∧ t.events = more

/-- The script line WAIT ends, in the model's schedule of polls (DESIGN CHOICE, log 10; R65, R256): after finitely many steps the host has read
a STATUS with BUSY = 0 and the next line is due. For a GENKEY, which R65 and R256 except, this rests on SEED's finite width alone: the loop
then ends by SeedOverflow at the latest, a by-product of that width and no cap of the spec (R103). The list `reads` is the model's (log 9). -/
def Obligations.WaitEndsWithBusyClear : Prop :=
  ∀ (s : State) (es : List Event), Invariant s → s.events = .wait :: es →
    ∃ n t x xs, Host.Core.run Sys2Proof.core n s = .next t ∧ t.events = es ∧ busy t = false ∧ t.reads = x :: xs ∧
      x = (status t).toNat ∧ x % 2 = 0
end

