-- ==== Sys2Proof/Laws/State.lean ====
section
/-! SUPPORT. The state record: one lemma for each field under each shared update, so that no proof unfolds an update. -/

namespace Sys2Proof.Machine

@[simp] theorem raise_cfg (x : Cause) (s : State) : (raise x s).cfg = s.cfg := rfl
@[simp] theorem raise_p (x : Cause) (s : State) : (raise x s).p = s.p := rfl
@[simp] theorem raise_rk (x : Cause) (s : State) : (raise x s).rk = s.rk := rfl
@[simp] theorem raise_keyvalid (x : Cause) (s : State) : (raise x s).keyvalid = s.keyvalid := rfl
@[simp] theorem raise_v (x : Cause) (s : State) : (raise x s).v = s.v := rfl
@[simp] theorem raise_l (x : Cause) (s : State) : (raise x s).l = s.l := rfl
@[simp] theorem raise_r (x : Cause) (s : State) : (raise x s).r = s.r := rfl
@[simp] theorem raise_f (x : Cause) (s : State) : (raise x s).f = s.f := rfl
@[simp] theorem raise_t (x : Cause) (s : State) : (raise x s).t = s.t := rfl
@[simp] theorem raise_rnd (x : Cause) (s : State) : (raise x s).rnd = s.rnd := rfl
@[simp] theorem raise_phase (x : Cause) (s : State) : (raise x s).phase = .fault := rfl
@[simp] theorem raise_cmdr (x : Cause) (s : State) : (raise x s).cmdr = s.cmdr := rfl
@[simp] theorem raise_seed (x : Cause) (s : State) : (raise x s).seed = s.seed := rfl
@[simp] theorem raise_done (x : Cause) (s : State) : (raise x s).done = s.done := rfl
@[simp] theorem raise_err (x : Cause) (s : State) : (raise x s).err = x.code := rfl
@[simp] theorem raise_events (x : Cause) (s : State) : (raise x s).events = s.events := rfl
@[simp] theorem raise_reads (x : Cause) (s : State) : (raise x s).reads = s.reads := rfl
@[simp] theorem raise_busyReads (x : Cause) (s : State) : (raise x s).busyReads = s.busyReads := rfl

@[simp] theorem complete_cfg (s : State) : (complete s).cfg = s.cfg := rfl
@[simp] theorem complete_p (s : State) : (complete s).p = s.p := rfl
@[simp] theorem complete_rk (s : State) : (complete s).rk = s.rk := rfl
@[simp] theorem complete_keyvalid (s : State) : (complete s).keyvalid = s.keyvalid := rfl
@[simp] theorem complete_v (s : State) : (complete s).v = s.v := rfl
@[simp] theorem complete_l (s : State) : (complete s).l = s.l := rfl
@[simp] theorem complete_r (s : State) : (complete s).r = s.r := rfl
@[simp] theorem complete_f (s : State) : (complete s).f = s.f := rfl
@[simp] theorem complete_t (s : State) : (complete s).t = s.t := rfl
@[simp] theorem complete_rnd (s : State) : (complete s).rnd = s.rnd := rfl
@[simp] theorem complete_phase (s : State) : (complete s).phase = .idle := rfl
@[simp] theorem complete_cmdr (s : State) : (complete s).cmdr = s.cmdr := rfl
@[simp] theorem complete_seed (s : State) : (complete s).seed = s.seed := rfl
@[simp] theorem complete_done (s : State) : (complete s).done = true := rfl
@[simp] theorem complete_err (s : State) : (complete s).err = s.err := rfl
@[simp] theorem complete_events (s : State) : (complete s).events = s.events := rfl
@[simp] theorem complete_reads (s : State) : (complete s).reads = s.reads := rfl
@[simp] theorem complete_busyReads (s : State) : (complete s).busyReads = s.busyReads := rfl

@[simp] theorem noteCommand_cfg (b : Byte) (s : State) : (noteCommand b s).cfg = s.cfg := rfl
@[simp] theorem noteCommand_p (b : Byte) (s : State) : (noteCommand b s).p = s.p := rfl
@[simp] theorem noteCommand_rk (b : Byte) (s : State) : (noteCommand b s).rk = s.rk := rfl
@[simp] theorem noteCommand_keyvalid (b : Byte) (s : State) : (noteCommand b s).keyvalid = s.keyvalid := rfl
@[simp] theorem noteCommand_v (b : Byte) (s : State) : (noteCommand b s).v = s.v := rfl
@[simp] theorem noteCommand_l (b : Byte) (s : State) : (noteCommand b s).l = s.l := rfl
@[simp] theorem noteCommand_r (b : Byte) (s : State) : (noteCommand b s).r = s.r := rfl
@[simp] theorem noteCommand_f (b : Byte) (s : State) : (noteCommand b s).f = s.f := rfl
@[simp] theorem noteCommand_t (b : Byte) (s : State) : (noteCommand b s).t = s.t := rfl
@[simp] theorem noteCommand_rnd (b : Byte) (s : State) : (noteCommand b s).rnd = s.rnd := rfl
@[simp] theorem noteCommand_phase (b : Byte) (s : State) : (noteCommand b s).phase = s.phase := rfl
@[simp] theorem noteCommand_cmdr (b : Byte) (s : State) : (noteCommand b s).cmdr = b := rfl
@[simp] theorem noteCommand_seed (b : Byte) (s : State) : (noteCommand b s).seed = s.seed := rfl
@[simp] theorem noteCommand_done (b : Byte) (s : State) : (noteCommand b s).done = false := rfl
@[simp] theorem noteCommand_err (b : Byte) (s : State) : (noteCommand b s).err = s.err := rfl
@[simp] theorem noteCommand_events (b : Byte) (s : State) : (noteCommand b s).events = s.events := rfl
@[simp] theorem noteCommand_reads (b : Byte) (s : State) : (noteCommand b s).reads = s.reads := rfl
@[simp] theorem noteCommand_busyReads (b : Byte) (s : State) : (noteCommand b s).busyReads = s.busyReads := rfl

@[simp] theorem start_cfg (ph : Phase) (s : State) : (start ph s).cfg = s.cfg := rfl
@[simp] theorem start_p (ph : Phase) (s : State) : (start ph s).p = s.p := rfl
@[simp] theorem start_rk (ph : Phase) (s : State) : (start ph s).rk = s.rk := rfl
@[simp] theorem start_keyvalid (ph : Phase) (s : State) : (start ph s).keyvalid = s.keyvalid := rfl
@[simp] theorem start_v (ph : Phase) (s : State) : (start ph s).v = s.v := rfl
@[simp] theorem start_l (ph : Phase) (s : State) : (start ph s).l = s.l := rfl
@[simp] theorem start_r (ph : Phase) (s : State) : (start ph s).r = s.r := rfl
@[simp] theorem start_f (ph : Phase) (s : State) : (start ph s).f = s.f := rfl
@[simp] theorem start_t (ph : Phase) (s : State) : (start ph s).t = s.t := rfl
@[simp] theorem start_rnd (ph : Phase) (s : State) : (start ph s).rnd = 0 := rfl
@[simp] theorem start_phase (ph : Phase) (s : State) : (start ph s).phase = ph := rfl
@[simp] theorem start_cmdr (ph : Phase) (s : State) : (start ph s).cmdr = s.cmdr := rfl
@[simp] theorem start_seed (ph : Phase) (s : State) : (start ph s).seed = s.seed := rfl
@[simp] theorem start_done (ph : Phase) (s : State) : (start ph s).done = s.done := rfl
@[simp] theorem start_err (ph : Phase) (s : State) : (start ph s).err = s.err := rfl
@[simp] theorem start_events (ph : Phase) (s : State) : (start ph s).events = s.events := rfl
@[simp] theorem start_reads (ph : Phase) (s : State) : (start ph s).reads = s.reads := rfl
@[simp] theorem start_busyReads (ph : Phase) (s : State) : (start ph s).busyReads = s.busyReads := rfl

@[simp] theorem destroyKey_cfg (s : State) : (destroyKey s).cfg = s.cfg := rfl
@[simp] theorem destroyKey_p (s : State) : (destroyKey s).p = 0 := rfl
@[simp] theorem destroyKey_rk (s : State) : (destroyKey s).rk = List.replicate s.cfg.rounds 0 := rfl
@[simp] theorem destroyKey_keyvalid (s : State) : (destroyKey s).keyvalid = false := rfl
@[simp] theorem destroyKey_v (s : State) : (destroyKey s).v = s.v := rfl
@[simp] theorem destroyKey_l (s : State) : (destroyKey s).l = s.l := rfl
@[simp] theorem destroyKey_r (s : State) : (destroyKey s).r = s.r := rfl
@[simp] theorem destroyKey_f (s : State) : (destroyKey s).f = s.f := rfl
@[simp] theorem destroyKey_t (s : State) : (destroyKey s).t = s.t := rfl
@[simp] theorem destroyKey_rnd (s : State) : (destroyKey s).rnd = s.rnd := rfl
@[simp] theorem destroyKey_phase (s : State) : (destroyKey s).phase = s.phase := rfl
@[simp] theorem destroyKey_cmdr (s : State) : (destroyKey s).cmdr = s.cmdr := rfl
@[simp] theorem destroyKey_seed (s : State) : (destroyKey s).seed = s.seed := rfl
@[simp] theorem destroyKey_done (s : State) : (destroyKey s).done = s.done := rfl
@[simp] theorem destroyKey_err (s : State) : (destroyKey s).err = s.err := rfl
@[simp] theorem destroyKey_events (s : State) : (destroyKey s).events = s.events := rfl
@[simp] theorem destroyKey_reads (s : State) : (destroyKey s).reads = s.reads := rfl
@[simp] theorem destroyKey_busyReads (s : State) : (destroyKey s).busyReads = s.busyReads := rfl

@[simp] theorem hostRead_cfg (idx : Byte) (s : State) : (hostRead idx s).cfg = s.cfg := rfl
@[simp] theorem hostRead_p (idx : Byte) (s : State) : (hostRead idx s).p = s.p := rfl
@[simp] theorem hostRead_rk (idx : Byte) (s : State) : (hostRead idx s).rk = s.rk := rfl
@[simp] theorem hostRead_keyvalid (idx : Byte) (s : State) : (hostRead idx s).keyvalid = s.keyvalid := rfl
@[simp] theorem hostRead_v (idx : Byte) (s : State) : (hostRead idx s).v = s.v := rfl
@[simp] theorem hostRead_l (idx : Byte) (s : State) : (hostRead idx s).l = s.l := rfl
@[simp] theorem hostRead_r (idx : Byte) (s : State) : (hostRead idx s).r = s.r := rfl
@[simp] theorem hostRead_f (idx : Byte) (s : State) : (hostRead idx s).f = s.f := rfl
@[simp] theorem hostRead_t (idx : Byte) (s : State) : (hostRead idx s).t = s.t := rfl
@[simp] theorem hostRead_rnd (idx : Byte) (s : State) : (hostRead idx s).rnd = s.rnd := rfl
@[simp] theorem hostRead_phase (idx : Byte) (s : State) : (hostRead idx s).phase = s.phase := rfl
@[simp] theorem hostRead_cmdr (idx : Byte) (s : State) : (hostRead idx s).cmdr = s.cmdr := rfl
@[simp] theorem hostRead_seed (idx : Byte) (s : State) : (hostRead idx s).seed = s.seed := rfl
@[simp] theorem hostRead_done (idx : Byte) (s : State) : (hostRead idx s).done = s.done := rfl
@[simp] theorem hostRead_err (idx : Byte) (s : State) : (hostRead idx s).err = s.err := rfl
@[simp] theorem hostRead_events (idx : Byte) (s : State) : (hostRead idx s).events = s.events := rfl
@[simp] theorem hostRead_reads (idx : Byte) (s : State) : (hostRead idx s).reads = readValue s idx :: s.reads := rfl
@[simp] theorem hostRead_busyReads (idx : Byte) (s : State) : (hostRead idx s).busyReads = if readIsFree s idx then s.busyReads + 1 else s.busyReads := rfl

@[simp] theorem hardware_cfg (s : State) : (hardware s).cfg = s.cfg := rfl
@[simp] theorem hardware_p (s : State) : (hardware s).p = s.p := rfl
@[simp] theorem hardware_rk (s : State) : (hardware s).rk = s.rk := rfl
@[simp] theorem hardware_keyvalid (s : State) : (hardware s).keyvalid = s.keyvalid := rfl
@[simp] theorem hardware_v (s : State) : (hardware s).v = s.v := rfl
@[simp] theorem hardware_l (s : State) : (hardware s).l = s.l := rfl
@[simp] theorem hardware_r (s : State) : (hardware s).r = s.r := rfl
@[simp] theorem hardware_f (s : State) : (hardware s).f = s.f := rfl
@[simp] theorem hardware_t (s : State) : (hardware s).t = s.t := rfl
@[simp] theorem hardware_rnd (s : State) : (hardware s).rnd = s.rnd := rfl
@[simp] theorem hardware_phase (s : State) : (hardware s).phase = s.phase := rfl
@[simp] theorem hardware_cmdr (s : State) : (hardware s).cmdr = s.cmdr := rfl
@[simp] theorem hardware_seed (s : State) : (hardware s).seed = s.seed := rfl
@[simp] theorem hardware_done (s : State) : (hardware s).done = s.done := rfl
@[simp] theorem hardware_err (s : State) : (hardware s).err = s.err := rfl
@[simp] theorem hardware_events (s : State) : (hardware s).events = [] := rfl
@[simp] theorem hardware_reads (s : State) : (hardware s).reads = [] := rfl
@[simp] theorem hardware_busyReads (s : State) : (hardware s).busyReads = 0 := rfl

@[simp] theorem resetOf_cfg (c : Config) : (State.resetOf c).cfg = c := rfl
@[simp] theorem resetOf_p (c : Config) : (State.resetOf c).p = 0 := rfl
@[simp] theorem resetOf_rk (c : Config) : (State.resetOf c).rk = List.replicate c.rounds 0 := rfl
@[simp] theorem resetOf_keyvalid (c : Config) : (State.resetOf c).keyvalid = false := rfl
@[simp] theorem resetOf_v (c : Config) : (State.resetOf c).v = 0 := rfl
@[simp] theorem resetOf_l (c : Config) : (State.resetOf c).l = 0 := rfl
@[simp] theorem resetOf_r (c : Config) : (State.resetOf c).r = 0 := rfl
@[simp] theorem resetOf_f (c : Config) : (State.resetOf c).f = 0 := rfl
@[simp] theorem resetOf_t (c : Config) : (State.resetOf c).t = 0 := rfl
@[simp] theorem resetOf_rnd (c : Config) : (State.resetOf c).rnd = 0 := rfl
@[simp] theorem resetOf_phase (c : Config) : (State.resetOf c).phase = .idle := rfl
@[simp] theorem resetOf_cmdr (c : Config) : (State.resetOf c).cmdr = 0 := rfl
@[simp] theorem resetOf_seed (c : Config) : (State.resetOf c).seed = c.seed0 := rfl
@[simp] theorem resetOf_done (c : Config) : (State.resetOf c).done = false := rfl
@[simp] theorem resetOf_err (c : Config) : (State.resetOf c).err = 0 := rfl
@[simp] theorem resetOf_events (c : Config) : (State.resetOf c).events = [] := rfl
@[simp] theorem resetOf_reads (c : Config) : (State.resetOf c).reads = [] := rfl
@[simp] theorem resetOf_busyReads (c : Config) : (State.resetOf c).busyReads = 0 := rfl

@[simp] theorem resetEvent_cfg (s : State) : (resetEvent s).cfg = s.cfg := rfl
@[simp] theorem resetEvent_p (s : State) : (resetEvent s).p = 0 := rfl
@[simp] theorem resetEvent_rk (s : State) : (resetEvent s).rk = List.replicate s.cfg.rounds 0 := rfl
@[simp] theorem resetEvent_keyvalid (s : State) : (resetEvent s).keyvalid = false := rfl
@[simp] theorem resetEvent_v (s : State) : (resetEvent s).v = 0 := rfl
@[simp] theorem resetEvent_l (s : State) : (resetEvent s).l = 0 := rfl
@[simp] theorem resetEvent_r (s : State) : (resetEvent s).r = 0 := rfl
@[simp] theorem resetEvent_f (s : State) : (resetEvent s).f = 0 := rfl
@[simp] theorem resetEvent_t (s : State) : (resetEvent s).t = 0 := rfl
@[simp] theorem resetEvent_rnd (s : State) : (resetEvent s).rnd = 0 := rfl
@[simp] theorem resetEvent_phase (s : State) : (resetEvent s).phase = .idle := rfl
@[simp] theorem resetEvent_cmdr (s : State) : (resetEvent s).cmdr = 0 := rfl
@[simp] theorem resetEvent_seed (s : State) : (resetEvent s).seed = s.cfg.seed0 := rfl
@[simp] theorem resetEvent_done (s : State) : (resetEvent s).done = false := rfl
@[simp] theorem resetEvent_err (s : State) : (resetEvent s).err = 0 := rfl
@[simp] theorem resetEvent_events (s : State) : (resetEvent s).events = s.events := rfl
@[simp] theorem resetEvent_reads (s : State) : (resetEvent s).reads = s.reads := rfl
@[simp] theorem resetEvent_busyReads (s : State) : (resetEvent s).busyReads = s.busyReads := rfl

end Sys2Proof.Machine
end

