-- ==== Sys2Proof/Laws/Ops.lean ====
section
/-! SUPPORT. The shared operations: for each, one lemma that says everything it can do. -/

namespace Sys2Proof.Machine

/-- The fault codes are 1 to 6 (R211). -/
theorem code_range (x : Cause) : 1 ≤ x.code.toNat ∧ x.code.toNat ≤ 6 := by cases x <;> decide

theorem code_ne_zero (x : Cause) : x.code ≠ 0 := by cases x <;> decide

/-- A draw either finds SEED at its maximum or advances it by one and uses the new value. -/
theorem draw_cases (g : Nat → Nat) (s : State) :
    (s.seed = 2 ^ s.cfg.seedBits - 1 ∧ draw g s = none) ∨
    (s.seed ≠ 2 ^ s.cfg.seedBits - 1 ∧ draw g s = some (g (s.seed + 1), { s with seed := s.seed + 1 })) := by
  unfold draw
  split
  · exact .inl ⟨‹_›, rfl⟩
  · exact .inr ⟨‹_›, rfl⟩

theorem draw_at_max (g : Nat → Nat) (s : State) (h : s.seed = 2 ^ s.cfg.seedBits - 1) : draw g s = none := by simp [draw, h]

theorem draw_below_max (g : Nat → Nat) (s : State) (h : s.seed ≠ 2 ^ s.cfg.seedBits - 1) :
    draw g s = some (g (s.seed + 1), { s with seed := s.seed + 1 }) := by simp [draw, h]

@[simp] theorem whenIdle_idle (act : State → State) (s : State) (h : s.phase = .idle) : whenIdle act s = act s := if_pos h

@[simp] theorem whenIdle_not_idle (act : State → State) (s : State) (h : s.phase ≠ .idle) : whenIdle act s = s := if_neg h

/-- The accept of a keyed command is a drop, a start, or NoKey. -/
theorem acceptKeyed_cases (i : Instr) (ph : Phase) (s : State) :
    (s.phase ≠ .idle ∧ acceptKeyed i ph s = s) ∨
    (s.phase = .idle ∧ s.keyvalid = true ∧ acceptKeyed i ph s = start ph (noteCommand (encode i) s)) ∨
    (s.phase = .idle ∧ s.keyvalid = false ∧ acceptKeyed i ph s = raise .noKey (noteCommand (encode i) s)) := by
  by_cases h : s.phase = .idle
  · cases hk : s.keyvalid <;> simp [acceptKeyed, h, hk]
  · simp [acceptKeyed, h]

/-- The accept of GENKEY is a drop or a start without a key. -/
theorem acceptGenkey_cases (s : State) :
    (s.phase ≠ .idle ∧ acceptGenkey s = s) ∨
    (s.phase = .idle ∧ acceptGenkey s = start .gDraw (destroyKey (noteCommand (encode .genkey) s))) := by
  by_cases h : s.phase = .idle <;> simp [acceptGenkey, h]

/-- The accept of an illegal byte is a drop or IllegalCommand. -/
theorem acceptIllegal_cases (b : Byte) (s : State) :
    (s.phase ≠ .idle ∧ acceptIllegal b s = s) ∨
    (s.phase = .idle ∧ acceptIllegal b s = raise .illegalCommand (noteCommand b s)) := by
  by_cases h : s.phase = .idle <;> simp [acceptIllegal, h]

theorem modAdd_lt (a b : Nat) {p : Nat} (hp : 0 < p) : modAdd a b p < p := Nat.mod_lt _ hp

theorem modSub_lt (a b : Nat) {p : Nat} (hp : 0 < p) : modSub a b p < p := Nat.mod_lt _ hp

theorem accumulate_lt (d : Dir) (l t : Nat) {p : Nat} (hp : 0 < p) : accumulate d l t p < p := by
  cases d
  · exact modAdd_lt l t hp
  · exact modSub_lt l t hp

theorem modinv_lt (a : Nat) {p : Nat} (hp : 0 < p) : modinv a p < p := Nat.mod_lt _ hp

theorem trunc_lt (n v : Nat) : trunc n v < 2 ^ n := Nat.mod_lt _ (Nat.two_pow_pos n)

/-- A candidate of a W-bit draw fits P (R101). -/
theorem candidate_lt (c : Config) (x : Nat) (hw : 2 ≤ c.w) (hx : x < 2 ^ c.w) : candidate c x < 2 ^ c.w := by
  unfold candidate
  split
  · have h1 : 2 ^ (c.w - 1) < 2 ^ c.w := Nat.pow_lt_pow_right (by omega) (by omega)
    have h2 : 1 < 2 ^ c.w := Nat.one_lt_two_pow (by omega)
    exact Nat.or_lt_two_pow (Nat.or_lt_two_pow hx h1) h2
  · exact hx

end Sys2Proof.Machine
end

