-- ==== Sys2Proof/Laws/Engine.lean ====
section
/-! SUPPORT. The engine's steps: for each, everything a next state of it can be. -/

namespace Sys2Proof.Machine

variable {s t : State}

theorem stepGDraw_cases (h : stepGDraw s = .next t) :
    (s.seed = 2 ^ s.cfg.seedBits - 1 ∧ t = raise .seedOverflow s) ∨
    (s.seed ≠ 2 ^ s.cfg.seedBits - 1 ∧
      t = { s with seed := s.seed + 1, p := candidate s.cfg (randBits (s.seed + 1) s.cfg.w), phase := .gTest }) := by
  unfold stepGDraw at h
  rcases draw_cases (fun seed => randBits seed s.cfg.w) s with ⟨hm, hd⟩ | ⟨hm, hd⟩ <;> rw [hd] at h <;> cases h
  · exact .inl ⟨hm, rfl⟩
  · exact .inr ⟨hm, rfl⟩

theorem stepGTest_cases (h : stepGTest s = .next t) :
    (primeTest s.p s.cfg.certainty s.seed = true ∧ t = { s with phase := .gCheck }) ∨
    (primeTest s.p s.cfg.certainty s.seed = false ∧ t = { s with phase := .gDraw }) := by
  unfold stepGTest at h
  cases hp : primeTest s.p s.cfg.certainty s.seed <;> rw [hp] at h <;> cases h
  · exact .inr ⟨rfl, rfl⟩
  · exact .inl ⟨rfl, rfl⟩

theorem stepGCheck_cases (h : stepGCheck s = .next t) :
    ((s.p = 0 ∨ s.p % 2 = 0) ∧ t = raise .invalidModulus s) ∨ (s.p ≠ 0 ∧ s.p % 2 = 1 ∧ t = { s with phase := .gKey }) := by
  unfold stepGCheck at h
  split at h <;> cases h
  · exact .inl ⟨‹_›, rfl⟩
  · exact .inr ⟨by omega, by omega, rfl⟩

theorem stepGKey_cases (h : stepGKey s = .next t) :
    s.p ≠ 0 ∧ s.rnd < s.cfg.rounds ∧
    ((s.seed = 2 ^ s.cfg.seedBits - 1 ∧ t = raise .seedOverflow s) ∨
     (s.seed ≠ 2 ^ s.cfg.seedBits - 1 ∧ s.rnd + 1 = s.cfg.rounds ∧
       t = { s with seed := s.seed + 1, rk := s.rk.set s.rnd (randBelow (s.seed + 1) s.p), rnd := s.rnd + 1, keyvalid := true,
                    done := true, phase := .idle }) ∨
     (s.seed ≠ 2 ^ s.cfg.seedBits - 1 ∧ s.rnd + 1 < s.cfg.rounds ∧
       t = { s with seed := s.seed + 1, rk := s.rk.set s.rnd (randBelow (s.seed + 1) s.p), rnd := s.rnd + 1, phase := .gKey })) := by
  unfold stepGKey at h
  split at h
  · cases h
  split at h
  · cases h
  refine ⟨‹_›, by omega, ?_⟩
  rcases draw_cases (fun seed => randBelow seed s.p) s with ⟨hm, hd⟩ | ⟨hm, hd⟩ <;> rw [hd] at h
  · cases h; exact .inl ⟨hm, rfl⟩
  · simp only [] at h
    split at h <;> cases h
    · exact .inr (.inl ⟨hm, ‹_›, rfl⟩)
    · exact .inr (.inr ⟨hm, by omega, rfl⟩)

theorem stepSplit_cases (h : stepSplit s = .next t) :
    s.p ≠ 0 ∧
    ((opcode s = opcOf .split ∧ t = { s with l := s.v / s.p, r := s.v % s.p, done := true, phase := .idle }) ∨
     (opcode s ≠ opcOf .split ∧ t = { s with l := s.v / s.p, r := s.v % s.p, phase := .f })) := by
  unfold stepSplit at h
  split at h
  · cases h
  refine ⟨‹_›, ?_⟩
  simp only [] at h
  split at h <;> cases h
  · exact .inl ⟨‹_›, rfl⟩
  · exact .inr ⟨‹_›, rfl⟩

theorem stepF_cases (h : stepF s = .next t) :
    (s.r = 0 ∧ t = { s with f := 0, phase := .t }) ∨
    (s.r ≠ 0 ∧ s.p ≠ 0 ∧ Nat.gcd s.r s.p = 1 ∧ t = { s with f := modinv s.r s.p, phase := .t }) ∨
    (s.r ≠ 0 ∧ s.p ≠ 0 ∧ Nat.gcd s.r s.p ≠ 1 ∧ t = raise .notInvertible s) := by
  unfold stepF at h
  split at h
  · cases h; exact .inl ⟨‹_›, rfl⟩
  split at h
  · cases h
  split at h <;> cases h
  · exact .inr (.inl ⟨‹_›, ‹_›, by simpa [invertible] using ‹invertible s.r s.p = true›, rfl⟩)
  · exact .inr (.inr ⟨‹_›, ‹_›, by simpa [invertible] using ‹¬ invertible s.r s.p = true›, rfl⟩)

theorem stepT_cases (h : stepT s = .next t) :
    s.p ≠ 0 ∧ ∃ d k, direction s = some d ∧ roundKey s d = some k ∧ t = { s with t := modAdd s.f k s.p, phase := .acc } := by
  unfold stepT at h
  split at h
  · cases h
  split at h
  · cases h
  split at h
  · cases h
  · cases h; exact ⟨‹_›, _, _, ‹_›, ‹_›, rfl⟩

theorem stepAcc_cases (h : stepAcc s = .next t) :
    s.p ≠ 0 ∧ ∃ d, direction s = some d ∧ t = { s with l := accumulate d s.l s.t s.p, phase := .swap } := by
  unfold stepAcc at h
  split at h
  · cases h
  split at h
  · cases h
  · cases h; exact ⟨‹_›, _, ‹_›, rfl⟩

theorem stepSwap_cases (h : stepSwap s = .next t) :
    (s.rnd + 1 = s.cfg.rounds ∧ t = { s with rnd := s.rnd + 1, phase := .join }) ∨
    (s.rnd + 1 < s.cfg.rounds ∧ s.l < 2 ^ s.cfg.w ∧ t = { s with l := s.r, r := s.l, rnd := s.rnd + 1, phase := .f }) := by
  unfold stepSwap at h
  split at h
  · cases h
  split at h
  · cases h; exact .inl ⟨‹_›, rfl⟩
  split at h <;> cases h
  exact .inr ⟨by omega, ‹_›, rfl⟩

theorem stepJoin_cases (h : stepJoin s = .next t) :
    (2 ^ s.cfg.vw ≤ s.l * s.p + s.r ∧ t = raise .valueOverflow s) ∨
    (s.l * s.p + s.r < 2 ^ s.cfg.vw ∧ t = { s with v := s.l * s.p + s.r, done := true, phase := .idle }) := by
  unfold stepJoin at h
  split at h <;> cases h
  · exact .inl ⟨‹_›, rfl⟩
  · exact .inr ⟨by omega, rfl⟩

/-- No step of the engine is enabled in IDLE or FAULT. -/
theorem engineStep_not_busy (s : State) (h : busy s = false) : engineStep s = .next s := by
  unfold busy at h
  unfold engineStep
  cases hp : s.phase <;> simp [hp] at h <;> rfl

theorem engineRun_zero (s : State) : engineRun 0 s = .next s := rfl

theorem engineRun_succ {n : Nat} (h : engineStep s = .next t) : engineRun (n + 1) s = engineRun n t := by simp [engineRun, h]

/-- A run is its first part followed by its second. -/
theorem engineRun_add (m n : Nat) : ∀ {s t : State}, engineRun m s = .next t → engineRun (m + n) s = engineRun n t := by
  induction m with
  | zero => intro s t h; cases h; simp
  | succ m ih =>
    intro s t h
    cases hs : engineStep s with
    | next s1 => rw [engineRun_succ hs] at h; rw [Nat.succ_add, engineRun_succ hs, ih h]
    | fault x => simp [engineRun, hs] at h
    | refused x => simp [engineRun, hs] at h

/-- A run that has left the busy phases stays where it is. -/
theorem engineRun_not_busy (n : Nat) (h : busy s = false) : engineRun n s = .next s := by
  induction n with
  | zero => rfl
  | succ n ih => rw [engineRun_succ (engineStep_not_busy s h), ih]

end Sys2Proof.Machine
end

