-- ==== Sys2Proof/Laws/PerInstr.lean ====
section
/-! SUPPORT. The per-instruction family EncodingShape: what the byte of each command is made of (R60, R62). -/

namespace Sys2Proof.Laws.EncodingShape

/-- The fields of a command's byte are RSV = 0 and its OPC, they are well formed, and the decoder and the table reader give the command back. -/
def Statement (i : Instr) : Prop :=
  (fieldsOf (encode i)).rsv = 0 ∧ (fieldsOf (encode i)).opc = opcOf i ∧ (fieldsOf (encode i)).wf = true ∧
    decode (encode i) = .ok i ∧ decodeTableWord 8 (encode i).toNat = some i

theorem genkey : Statement .genkey := ⟨rfl, rfl, rfl, rfl, rfl⟩

theorem enc : Statement .enc := ⟨rfl, rfl, rfl, rfl, rfl⟩

theorem dec : Statement .dec := ⟨rfl, rfl, rfl, rfl, rfl⟩

theorem split : Statement .split := ⟨rfl, rfl, rfl, rfl, rfl⟩

theorem join : Statement .join := ⟨rfl, rfl, rfl, rfl, rfl⟩

end Sys2Proof.Laws.EncodingShape
end

