-- ==== Sys2Proof/Laws/Step.lean ====
section
/-! SUPPORT. The host's transactions, the accept and the step: for each, everything a next state of it can be. -/

namespace Sys2Proof.Machine

variable {s t : State}

/-- A byte that decodes is the encoding of its command. -/
theorem encode_of_decode {b : Byte} {i : Instr} (h : decode b = .ok i) : b = encode i := by
  have all : ∀ b : Byte, ∀ i ∈ [Instr.genkey, .enc, .dec, .split, .join], decode b = .ok i → b = encode i := by decide
  exact all b i (by cases i <;> decide) h

theorem regOf_status (c : Config) : regOf c (indexOf .status) = some .status := rfl

/-- What an index names: one of the ten registers of the low indices, a round key, or nothing (R63). -/
theorem regOf_cases (c : Config) (idx : Byte) :
    (idx = 0x00 ∧ regOf c idx = some .cmd) ∨ (idx = 0x01 ∧ regOf c idx = some .status) ∨ (idx = 0x02 ∧ regOf c idx = some .seed) ∨
    (idx = 0x03 ∧ regOf c idx = some .v) ∨ (idx = 0x04 ∧ regOf c idx = some .l) ∨ (idx = 0x05 ∧ regOf c idx = some .r) ∨
    (idx = 0x06 ∧ regOf c idx = some .p) ∨ (idx = 0x07 ∧ regOf c idx = some .f) ∨ (idx = 0x08 ∧ regOf c idx = some .t) ∨
    (idx = 0x09 ∧ regOf c idx = some .rnd) ∨
    (10 ≤ idx.toNat ∧ (∃ i, idx.toNat = 0x80 + i ∧ i < c.rounds ∧ regOf c idx = some (.rk i)) ∨
     10 ≤ idx.toNat ∧ (∀ i, idx.toNat = 0x80 + i → c.rounds ≤ i) ∧ regOf c idx = none) := by
  by_cases h : 10 ≤ idx.toNat
  · iterate 10 right
    have hr : regOf c idx = if 0x80 ≤ idx.toNat ∧ idx.toNat - 0x80 < c.rounds then some (.rk (idx.toNat - 0x80)) else none := by
      unfold regOf
      split <;> first | omega | rfl
    by_cases hk : 0x80 ≤ idx.toNat ∧ idx.toNat - 0x80 < c.rounds
    · exact .inl ⟨h, idx.toNat - 0x80, by omega, hk.2, by rw [hr, if_pos hk]⟩
    · exact .inr ⟨h, fun i hi => by omega, by rw [hr, if_neg hk]⟩
  · have hv : idx = BitVec.ofNat 8 idx.toNat := by simp
    have hlt : idx.toNat < 10 := by omega
    generalize idx.toNat = n at hv hlt
    subst hv
    interval_cases n <;> simp [regOf]

/-- The index of a name of the map leads back to that name (R63). -/
theorem regOf_indexOf {c : Config} {x : Reg} (hc : c.wf) (h : regNamed c x = true) : regOf c (indexOf x) = some x := by
  cases x <;> try rfl
  rename_i i
  have hi : i < c.rounds := by simpa [regNamed] using h
  have hr : c.rounds ≤ 128 := hc.1.2
  have hn : (indexOf (.rk i)).toNat = 0x80 + i := by simp [indexOf]; omega
  rcases regOf_cases c (indexOf (.rk i)) with ⟨hx, -⟩ | ⟨hx, -⟩ | ⟨hx, -⟩ | ⟨hx, -⟩ | ⟨hx, -⟩ | ⟨hx, -⟩ | ⟨hx, -⟩ | ⟨hx, -⟩ | ⟨hx, -⟩ | ⟨hx, -⟩ |
    ⟨-, j, hj, -, hreg⟩ | ⟨-, hnone, -⟩
  case inr.inr.inr.inr.inr.inr.inr.inr.inr.inr.inl =>
    rw [hreg, show j = i by omega]
  case inr.inr.inr.inr.inr.inr.inr.inr.inr.inr.inr => exact absurd (hnone i hn) (by omega)
  all_goals rw [hx] at hn; simp at hn; omega

/-- What a write to CMD does in IDLE (R191). -/
theorem writeCmd_cases (b : Byte) (hi : s.phase = .idle) (h : writeCmd b s = .next t) :
    ((∃ e, decode b = .error e) ∧ t = raise .illegalCommand (noteCommand b s)) ∨
    (b = encode .genkey ∧ t = start .gDraw (destroyKey (noteCommand b s))) ∨
    ((b = encode .enc ∨ b = encode .dec ∨ b = encode .split) ∧ s.keyvalid = true ∧ t = start .split (noteCommand b s)) ∨
    (b = encode .join ∧ s.keyvalid = true ∧ t = start .join (noteCommand b s)) ∨
    ((b = encode .enc ∨ b = encode .dec ∨ b = encode .split ∨ b = encode .join) ∧ s.keyvalid = false ∧
      t = raise .noKey (noteCommand b s)) := by
  unfold writeCmd at h
  split at h
  · rename_i i hd
    have hb := encode_of_decode hd
    subst hb
    cases i <;> simp only [exec, execGenkey, execEnc, execDec, execSplit, execJoin, Host.Outcome.next.injEq] at h <;> subst h
    · simp [acceptGenkey, hi]
    all_goals cases hk : s.keyvalid <;> simp [acceptKeyed, hi, hk]
  · rename_i e hd
    cases h
    exact .inl ⟨⟨e, hd⟩, by simp [acceptIllegal, hi]⟩

/-- What a host write does (R43). -/
theorem hostWrite_cases {idx : Byte} {v : Nat} (h : hostWrite idx v s = .next t) :
    t = s ∨
    (s.phase = .idle ∧
      ((idx = 0x00 ∧ writeCmd (cmdByte v) s = .next t) ∨ (idx = 0x02 ∧ t = { s with seed := trunc s.cfg.seedBits v }) ∨
       (idx = 0x03 ∧ t = { s with v := trunc s.cfg.vw v }) ∨ (idx = 0x04 ∧ t = { s with l := trunc s.cfg.vw v }) ∨
       (idx = 0x05 ∧ t = { s with r := trunc s.cfg.w v }))) := by
  unfold hostWrite at h
  by_cases hp : s.phase = .idle
  · rw [if_pos hp] at h
    rcases regOf_cases s.cfg idx with ⟨hx, hr⟩ | ⟨hx, hr⟩ | ⟨hx, hr⟩ | ⟨hx, hr⟩ | ⟨hx, hr⟩ | ⟨hx, hr⟩ | ⟨hx, hr⟩ | ⟨hx, hr⟩ | ⟨hx, hr⟩ |
      ⟨hx, hr⟩ | ⟨-, i, -, -, hr⟩ | ⟨-, -, hr⟩ <;> rw [hr] at h <;> simp only [writeOperand, Host.Outcome.next.injEq] at h <;> simp_all
  · rw [if_neg hp] at h; cases h; exact .inl rfl

/-- A step takes the next event, or with none pending the engine's step. -/
theorem step_cases (h : step s = .next t) :
    s.cfg.wf ∧ ((s.events = [] ∧ engineStep s = .next t) ∨
      ∃ e es, s.events = e :: es ∧ runEvent e { s with events := es } = .next t) := by
  unfold step at h
  split at h
  · refine ⟨‹_›, ?_⟩
    split at h
    · exact .inl ⟨‹_›, h⟩
    · exact .inr ⟨_, _, ‹_›, h⟩
  · cases h

theorem step_nil (hc : s.cfg.wf) (he : s.events = []) : step s = engineStep s := by simp [step, hc, he]

theorem step_cons {e : Event} {es : List Event} (hc : s.cfg.wf) (he : s.events = e :: es) :
    step s = runEvent e { s with events := es } := by simp [step, hc, he]

/-- A state with the outside world's fields replaced. -/
def withOutside (s : State) (es : List Event) (rs : List Nat) (n : Nat) : State := { s with events := es, reads := rs, busyReads := n }

theorem direction_withOutside (s : State) (es : List Event) (rs : List Nat) (n : Nat) : direction (withOutside s es rs n) = direction s := rfl

theorem roundKey_withOutside (s : State) (es : List Event) (rs : List Nat) (n : Nat) (d : Dir) :
    roundKey (withOutside s es rs n) d = roundKey s d := rfl

/-- The engine reads and writes the hardware only: pending events, past reads and the read counter go through it unchanged. -/
theorem engineStep_withOutside (s : State) (es : List Event) (rs : List Nat) (n : Nat) :
    engineStep (withOutside s es rs n) =
      match engineStep s with
      | .next t => .next (withOutside t es rs n)
      | .fault x => .fault x
      | .refused x => .refused x := by
  have hph : (withOutside s es rs n).phase = s.phase := rfl
  cases hp : s.phase <;> simp only [engineStep, hph, hp]
  · by_cases hm : s.seed = 2 ^ s.cfg.seedBits - 1 <;> simp [stepGDraw, draw, raise, withOutside, hm]
  · rfl
  · by_cases hz : s.p = 0 ∨ s.p % 2 = 0 <;> simp [stepGCheck, raise, withOutside, hz]
  · by_cases hz : s.p = 0
    · simp [stepGKey, withOutside, hz]
    by_cases hr : s.cfg.rounds ≤ s.rnd
    · simp [stepGKey, withOutside, hz, hr]
    by_cases hm : s.seed = 2 ^ s.cfg.seedBits - 1
    · simp [stepGKey, draw, raise, withOutside, hz, hr, hm]
    by_cases hl : s.rnd + 1 = s.cfg.rounds <;> simp [stepGKey, draw, complete, withOutside, hz, hr, hm, hl]
  · by_cases hz : s.p = 0
    · simp [stepSplit, withOutside, hz]
    by_cases ho : (fieldsOf s.cmdr).opc = opcOf .split <;> simp [stepSplit, opcode, complete, withOutside, hz, ho]
  · by_cases hr : s.r = 0
    · simp [stepF, withOutside, hr]
    by_cases hz : s.p = 0
    · simp [stepF, withOutside, hr, hz]
    cases hi : invertible s.r s.p <;> simp [stepF, raise, withOutside, hr, hz, hi]
  · by_cases hz : s.p = 0
    · simp [stepT, withOutside, hz]
    simp only [stepT, direction_withOutside, roundKey_withOutside]
    rcases direction s with _ | d
    · simp [withOutside, hz]
    rcases hk : roundKey s d with _ | k <;> simp [withOutside, hz, hk]
  · by_cases hz : s.p = 0
    · simp [stepAcc, withOutside, hz]
    simp only [stepAcc, direction_withOutside]
    rcases direction s with _ | d <;> simp [withOutside, hz]
  · by_cases hr : s.cfg.rounds ≤ s.rnd
    · simp [stepSwap, withOutside, hr]
    by_cases hl : s.rnd + 1 = s.cfg.rounds
    · simp [stepSwap, withOutside, hr, hl]
    by_cases hf : s.l < 2 ^ s.cfg.w <;> simp [stepSwap, withOutside, hr, hl, hf]
  · by_cases ho : 2 ^ s.cfg.vw ≤ s.l * s.p + s.r <;> simp [stepJoin, raise, complete, withOutside, ho]

end Sys2Proof.Machine
end

