-- ==== Sys2Proof/Tests/Slice0.lean ====
section
/-! SUPPORT. Tests: the well-formedness checks, decoding by words written out from R62, one-step tests with the values of
95_test_vectors.md, and for every obligation with hypotheses a witness that meets them. -/

namespace Sys2Proof.Tests

open Sys2Proof Sys2Proof.Machine

/-! ## Well-formedness -/

theorem test_wf_good : CmdFields.wf { rsv := 0, opc := 1 } = true ∧ CmdFields.wf { rsv := 0, opc := 5 } = true := by decide

/-- 0x12: RSV is not 0 (R60, R62). -/
theorem test_wf_rsv : CmdFields.wf { rsv := 1, opc := 2 } = false := by decide

/-- 0x00 (R62). -/
theorem test_wf_opc_zero : CmdFields.wf { rsv := 0, opc := 0 } = false := by decide

/-- 0x06 (R62). -/
theorem test_wf_opc_six : CmdFields.wf { rsv := 0, opc := 6 } = false := by decide

/-- Configuration A of 95_test_vectors.md. -/
def cfgA : Config := { rounds := 4, w := 4, seed0 := 233, certainty := 4, vw := 8, seedBits := 8, forceTopLow := true }

/-- Configuration E of 95_test_vectors.md. -/
def cfgE : Config := { cfgA with forceTopLow := false }

theorem test_cfg_good : cfgA.wf ∧ cfgE.wf ∧ Config.reference.wf := by decide

/-- The reference sizes of 00_scope.md section 4: CERTAINTY = W, VW = 2 * W, SEED_BITS = 64 by default. -/
theorem test_cfg_reference : Config.reference.certainty = 64 ∧ Config.reference.vw = 128 ∧ Config.reference.seedBits = 64 := by decide

theorem test_cfg_rounds_zero : ¬ Config.wf { cfgA with rounds := 0 } := by decide
theorem test_cfg_rounds_high : ¬ Config.wf { cfgA with rounds := 129 } := by decide
theorem test_cfg_w : ¬ Config.wf { cfgA with w := 1 } := by decide
theorem test_cfg_vw : ¬ Config.wf { cfgA with vw := 7 } := by decide
theorem test_cfg_seedBits : ¬ Config.wf { cfgA with seedBits := 0, seed0 := 0 } := by decide
theorem test_cfg_seed0 : ¬ Config.wf { cfgA with seed0 := 256 } := by decide

/-- A step with such parameters is refused by name (U17). -/
theorem test_cfg_refused : step (State.resetOf { cfgA with rounds := 0 }) = .refused .notAConfiguration := rfl

/-- R63, R64: with four rounds a script may name RK[3] and not RK[4]; RK[128] is no name in any configuration. -/
theorem test_lineWf : lineWf cfgA (.rd (.rk 3)) = true ∧ lineWf cfgA (.rd (.rk 4)) = false ∧
    lineWf cfgA (.wr (.rk 4) 7) = false ∧ lineWf { cfgA with rounds := 128 } (.wr (.rk 128) 1) = false := by decide

/-! ## Decoding: the words of R62, bit by bit -/

theorem test_decode_genkey : decode 0b00000001#8 = .ok .genkey := rfl
theorem test_decode_enc : decode 0b00000010#8 = .ok .enc := rfl
theorem test_decode_dec : decode 0b00000011#8 = .ok .dec := rfl
theorem test_decode_split : decode 0b00000100#8 = .ok .split := rfl
theorem test_decode_join : decode 0b00000101#8 = .ok .join := rfl
theorem test_decode_zero : decode 0b00000000#8 = .error .noSuchOpcode := rfl
theorem test_decode_six : decode 0b00000110#8 = .error .noSuchOpcode := rfl
theorem test_decode_rsv : decode 0b00010010#8 = .error .reservedField := rfl
theorem test_decode_high : decode 0b11111111#8 = .error .reservedField := rfl
theorem test_encode : encode .genkey = 0x01 ∧ encode .enc = 0x02 ∧ encode .dec = 0x03 ∧ encode .split = 0x04 ∧ encode .join = 0x05 := by decide
theorem test_tableWord : decodeTableWord 8 0x02 = some .enc ∧ decodeTableWord 8 0x102 = some .enc ∧ decodeTableWord 8 0x12 = none := by decide

/-! ## States of configuration A -/

/-- Configuration A right after reset. -/
def fresh : State := State.resetOf cfgA

/-- The state after program P1: the key P = 13, RK = [5, 0, 12, 7], SEED = 239. -/
def keyed : State :=
  { fresh with p := 13, rk := [5, 0, 12, 7], keyvalid := true, seed := 239, rnd := 4, cmdr := 0x01, done := true }

/-- A running command with that key, in a phase. -/
def running (i : Instr) (ph : Phase) : State := { keyed with cmdr := encode i, done := false, rnd := 0, phase := ph }

/-- A running GENKEY, in a phase. -/
def making (ph : Phase) : State := { fresh with cmdr := 0x01, phase := ph }

/-- A state of configuration A in FAULT (a second command byte, 0x12). -/
def broken : State := { keyed with cmdr := 0x12, done := false, err := 3, phase := .fault }

/-! ## One step of each command and of the engine: values of 95_test_vectors.md -/

/-- V17, accept; the old key is destroyed (R121). -/
theorem test_genkey_accept : exec .genkey keyed =
    .next { keyed with cmdr := 0x01, done := false, rnd := 0, keyvalid := false, p := 0, rk := [0, 0, 0, 0], phase := .gDraw } := rfl

/-- V17, the first G_DRAW: `RandBits(234, 4) = 6` gives the candidate `6 | 8 | 1 = 15`. -/
theorem test_genkey_draw (h : randBits 234 4 = 6) :
    engineStep (making .gDraw) = .next { making .gTest with seed := 234, p := 15 } := by
  show Host.Outcome.next { making .gTest with seed := 234, p := candidate cfgA (randBits 234 4) } = _
  rw [h]; rfl

/-- The example of R191. -/
theorem test_enc_accept : exec .enc keyed = .next (running .enc .split) := rfl

/-- V1, round 0: F, T, ACC and SWAP. -/
theorem test_enc_round :
    engineStep { running .enc .f with l := 7, r := 9 } = .next { running .enc .t with l := 7, r := 9, f := 3 } ∧
    engineStep { running .enc .t with f := 3 } = .next { running .enc .acc with f := 3, t := 8 } ∧
    engineStep { running .enc .acc with l := 7, t := 8 } = .next { running .enc .swap with l := 2, t := 8 } ∧
    engineStep { running .enc .swap with l := 2, r := 9 } = .next { running .enc .f with l := 9, r := 2, rnd := 1 } :=
  ⟨rfl, rfl, rfl, rfl⟩

/-- The example of R191 without a key: NoKey. -/
theorem test_dec_noKey : exec .dec fresh = .next { fresh with cmdr := 0x03, err := 4, phase := .fault } := rfl

/-- V2, round 0: the last key comes first and ACC subtracts; round 3 does not swap. -/
theorem test_dec_round :
    engineStep { running .dec .t with f := 4 } = .next { running .dec .acc with f := 4, t := 11 } ∧
    engineStep { running .dec .acc with l := 1, t := 11 } = .next { running .dec .swap with l := 3, t := 11 } ∧
    engineStep { running .dec .swap with l := 7, r := 9, rnd := 3 } = .next { running .dec .join with l := 7, r := 9, rnd := 4 } :=
  ⟨rfl, rfl, rfl⟩

/-- V15: the largest V. -/
theorem test_split : engineStep { running .split .split with v := 255 } =
    .next { running .split .idle with v := 255, l := 19, r := 8, done := true } := rfl

/-- V15: V = P^2 is not reduced. -/
theorem test_split_square : engineStep { running .split .split with v := 169 } =
    .next { running .split .idle with v := 169, l := 13, r := 0, done := true } := rfl

/-- V16: the largest result that fits. -/
theorem test_join : engineStep { running .join .join with l := 19, r := 8 } =
    .next { running .join .idle with l := 19, r := 8, v := 255, done := true } := rfl

/-- V16: the smallest that does not. -/
theorem test_join_overflow : engineStep { running .join .join with l := 19, r := 9, v := 77 } =
    .next { running .join .fault with l := 19, r := 9, v := 77, err := 5 } := rfl

/-- V13: NotInvertible under the modulus 9. -/
theorem test_notInvertible : engineStep { running .enc .f with p := 9, r := 3, f := 7 } =
    .next { running .enc .fault with p := 9, r := 3, f := 7, err := 1 } := rfl

/-- V18 (a) and (b): InvalidModulus and SeedOverflow. -/
theorem test_genkey_faults :
    engineStep { making .gCheck with p := 10 } = .next { making .fault with p := 10, err := 2 } ∧
    engineStep { making .gDraw with seed := 255 } = .next { making .fault with seed := 255, err := 6 } := ⟨rfl, rfl⟩

/-- The STATUS values at the head of 95_test_vectors.md. -/
theorem test_status : status fresh = 0x00 ∧ status keyed = 0x06 ∧ status (running .enc .t) = 0x05 ∧ status (making .gTest) = 0x01 ∧
    status broken = 0x3C ∧ status { running .enc .fault with err := 1 } = 0x1C ∧ status { making .fault with err := 2 } = 0x28 := by decide

/-- The first table of 40_collaborators.md section 2 (R83). -/
theorem test_modinv : (List.range' 1 12).map (fun a => modinv a 13) = [1, 7, 9, 10, 8, 11, 2, 5, 3, 4, 6, 12] := by decide

/-- V18 (e): truncation of a host write. -/
theorem test_write_seed : step { fresh with events := [.write 0x02 0x1E9] } = .next { fresh with seed := 233 } := rfl

/-- A read of a round key and of a reserved index (R63, R49). -/
theorem test_read : step { keyed with events := [.read 0x82, .read 0x84] } = .next { keyed with events := [.read 0x84], reads := [12] } ∧
    step { keyed with events := [.read 0x84] } = .next { keyed with reads := [0] } := ⟨rfl, rfl⟩

/-- The word placed for the next step runs as a command right after reset: without a key, SPLIT takes NoKey. -/
theorem test_withFetchWord : step (State.reset.withFetchWord 8 0x04) =
    .next { State.reset with cmdr := 0x04, err := 4, phase := .fault } := rfl

/-! ## Invariants of the states used below -/

theorem primeTest_of_prime (p c x : Nat) (h : Nat.Prime p) : primeTest p c x = true := by simp [primeTest, h]

theorem good13 {s : State} (hc : s.cfg = cfgA) (hp : s.p = 13) : GoodModulus s :=
  ⟨by omega, by omega, ⟨235, by rw [hc]; decide, by rw [hp]; exact primeTest_of_prime _ _ _ (by norm_num)⟩, by rw [hc, hp]; decide⟩

/-- The invariant of a state with the key of configuration A. -/
theorem inv_keyed {s : State} (hc : s.cfg = cfgA) (hp : s.p = 13) (hrk : s.rk = [5, 0, 12, 7])
    (hf : s.v < 256 ∧ s.l < 256 ∧ s.r < 16 ∧ s.f < 16 ∧ s.t < 16 ∧ s.rnd ≤ 4 ∧ s.seed < 256) (he : s.err = 0 ↔ s.phase ≠ .fault)
    (hcode : s.err.toNat ≤ 6) (hd : s.done = true → s.phase = .idle ∧ s.keyvalid = true) (hph : PhaseFacts s) : Invariant s where
  cfg := by rw [hc]; decide
  fits := by
    obtain ⟨a, b, c, d, e, f, g⟩ := hf
    constructor <;> rw [hc] <;> first | assumption | (rw [hp]; decide) | (rw [hrk]; decide)
  errPhase := he
  errCode := hcode
  done := hd
  key _ := ⟨good13 hc hp, by rw [hrk, hp]; decide⟩
  phase := hph

/-- The invariant of a state of configuration A without a key. -/
theorem inv_making {s : State} (hc : s.cfg = cfgA) (hk : s.keyvalid = false) (hrk : s.rk = [0, 0, 0, 0])
    (hf : s.p < 16 ∧ s.v < 256 ∧ s.l < 256 ∧ s.r < 16 ∧ s.f < 16 ∧ s.t < 16 ∧ s.rnd ≤ 4 ∧ s.seed < 256) (he : s.err = 0 ↔ s.phase ≠ .fault)
    (hcode : s.err.toNat ≤ 6) (hd : s.done = false) (hph : PhaseFacts s) : Invariant s where
  cfg := by rw [hc]; decide
  fits := by
    obtain ⟨p, a, b, c, d, e, f, g⟩ := hf
    constructor <;> rw [hc] <;> first | assumption | (rw [hrk]; decide)
  errPhase := he
  errCode := hcode
  done h := by rw [hd] at h; cases h
  key h := by rw [hk] at h; cases h
  phase := hph

theorem keyed_inv (v l r seed : Nat) (es : List Event) (hv : v < 256) (hl : l < 256) (hr : r < 16) (hs : seed < 256) :
    Invariant { keyed with v := v, l := l, r := r, seed := seed, events := es } :=
  inv_keyed rfl rfl rfl (by simp [keyed, fresh, State.resetOf]; omega) (by simp [keyed, fresh, State.resetOf])
    (by simp [keyed, fresh, State.resetOf]) (by simp [keyed, fresh, State.resetOf]) (fun h => by cases h)

theorem making_inv (seed : Nat) (hs : seed < 256) : Invariant { making .gDraw with seed := seed } :=
  inv_making rfl rfl rfl (by simp [making, fresh, State.resetOf]; omega) (by simp [making, fresh, State.resetOf])
    (by simp [making, fresh, State.resetOf]) rfl ⟨⟨rfl, rfl⟩, rfl⟩

theorem check_inv : Invariant { making .gCheck with p := 13, seed := 235 } :=
  inv_making rfl rfl rfl (by decide) (by decide) (by decide) rfl
    ⟨⟨rfl, rfl⟩, rfl, fun _ => by decide, primeTest_of_prime _ _ _ (by norm_num)⟩

theorem swap_inv (l r n : Nat) (hl : l < 13) (hr : r < 13) (hn : n < 4) : Invariant { running .enc .swap with l := l, r := r, rnd := n } :=
  inv_keyed rfl rfl rfl (by simp [running, keyed, fresh, State.resetOf]; omega) (by simp [running, keyed, fresh, State.resetOf])
    (by simp [running, keyed, fresh, State.resetOf]) (by simp [running]) ⟨⟨rfl, .inl rfl, hn, hr, fun _ => hl⟩, hl⟩

/-- The JOIN step of an ENC and of a DEC, with the largest halves. -/
theorem join_inv (d : Dir) : Invariant { running (commandOf d) .join with l := 12, r := 12, rnd := 4 } := by
  cases d
  · exact inv_keyed rfl rfl rfl (by decide) (by decide) (by decide) (by decide)
      ⟨rfl, .inl ⟨.inl rfl, rfl, by decide, by decide⟩⟩
  · exact inv_keyed rfl rfl rfl (by decide) (by decide) (by decide) (by decide)
      ⟨rfl, .inl ⟨.inr rfl, rfl, by decide, by decide⟩⟩

theorem joining_inv (l r : Nat) (hl : l < 256) (hr : r < 16) : Invariant { running .join .join with l := l, r := r } :=
  inv_keyed rfl rfl rfl (by simp [running, keyed, fresh, State.resetOf]; omega) (by simp [running, keyed, fresh, State.resetOf])
    (by simp [running, keyed, fresh, State.resetOf]) (by simp [running]) ⟨rfl, .inr ⟨rfl, rfl⟩⟩

/-- A busy state: step T of an ENC. -/
theorem busy_inv (es : List Event) : Invariant { running .enc .t with f := 3, events := es } :=
  inv_keyed rfl rfl rfl (by simp [running, keyed, fresh, State.resetOf]) (by simp [running, keyed, fresh, State.resetOf])
    (by simp [running, keyed, fresh, State.resetOf]) (by simp [running])
    ⟨⟨rfl, .inl rfl, Nat.zero_lt_succ 3, Nat.zero_lt_succ 12, fun h => absurd h (Nat.lt_irrefl 0)⟩, show 3 < 13 by decide⟩

/-! ## A run from reset whose key is known: W = 2 forces every candidate to 3, which is prime -/

/-- One round, two bits. -/
def cfgT : Config := { rounds := 1, w := 2, seed0 := 233, certainty := 2, vw := 4, seedBits := 8, forceTopLow := true }

theorem candidate_cfgT (x : Nat) (h : x < 4) : candidate cfgT x = 3 := by
  interval_cases x <;> rfl

theorem candidate_drawT : candidate cfgT (randBits 234 2) = 3 := candidate_cfgT _ (Nat.mod_lt _ (by decide))

/-- The one round key of that run. -/
def kT : Nat := randBelow 235 3

/-- The state after GENKEY. -/
def keyedT (es : List Event) : State :=
  { State.resetOf cfgT with p := 3, rk := [kT], keyvalid := true, seed := 235, rnd := 1, cmdr := 0x01, done := true, events := es }

/-- The ENC of 7 in a phase, with the working registers L, R, F, T and RND. -/
def encT (ph : Phase) (l r f t n : Nat) : State :=
  { keyedT [] with v := 7, cmdr := 0x02, done := false, phase := ph, l := l, r := r, f := f, t := t, rnd := n }

/-- A running GENKEY of that run. -/
def makingT (ph : Phase) (p seed : Nat) (es : List Event) : State :=
  { State.resetOf cfgT with cmdr := 0x01, p := p, seed := seed, phase := ph, events := es }

theorem drawT (es es2 : List Event) (h : es = .engine :: es2) : step (makingT .gDraw 0 233 es) = .next (makingT .gTest 3 234 es2) := by
  subst h
  show Host.Outcome.next (makingT .gTest (candidate cfgT (randBits 234 2)) 234 es2) = _
  rw [candidate_drawT]

theorem testT (es es2 : List Event) (h : es = .engine :: es2) : step (makingT .gTest 3 234 es) = .next (makingT .gCheck 3 234 es2) := by
  subst h
  show Host.Outcome.next { makingT .gTest 3 234 es2 with phase := if primeTest 3 2 234 then Phase.gCheck else .gDraw } = _
  rw [primeTest_of_prime _ _ _ (by norm_num)]; rfl

theorem checkT (es : List Event) : step (makingT .gCheck 3 234 (.engine :: es)) = .next (makingT .gKey 3 234 es) := by
  rw [step_cons (e := .engine) (es := es) (by decide : cfgT.wf) rfl]
  simp [runEvent, engineStep, stepGCheck, makingT]

/-- Reset, GENKEY: a reachable state with a key. -/
theorem reach_keyedT (es : List Event) : Reachable cfgT (keyedT es) := by
  have h0 := Reachable.reset (c := cfgT) (.write 0x00 0x01 :: .engine :: .engine :: .engine :: .engine :: es) (by decide)
  have h1 : Reachable cfgT (makingT .gDraw 0 233 (.engine :: .engine :: .engine :: .engine :: es)) := .step h0 rfl
  have h2 := Reachable.step h1 (drawT _ _ rfl)
  have h3 := Reachable.step h2 (testT _ _ rfl)
  have h4 : Reachable cfgT (makingT .gKey 3 234 (.engine :: es)) := .step h3 (checkT _)
  exact .step h4 rfl

/-- Then ENC of 7: the state at step F. -/
theorem reach_f : Reachable cfgT (encT .f 2 1 0 0 0) := by
  have h1 : Reachable cfgT { keyedT [.write 0x00 0x02] with v := 7 } := .step (reach_keyedT [.write 0x03 7, .write 0x00 0x02]) rfl
  have h2 : Reachable cfgT (encT .split 0 0 0 0 0) := .step h1 rfl
  exact .step h2 rfl

theorem reach_t : Reachable cfgT (encT .t 2 1 1 0 0) := .step reach_f rfl
theorem reach_acc : Reachable cfgT (encT .acc 2 1 1 (modAdd 1 kT 3) 0) := .step reach_t rfl
theorem reach_swap : Reachable cfgT (encT .swap (modAdd 2 (modAdd 1 kT 3) 3) 1 1 (modAdd 1 kT 3) 0) := .step reach_acc rfl
theorem reach_join : Reachable cfgT (encT .join (modAdd 2 (modAdd 1 kT 3) 3) 1 1 (modAdd 1 kT 3) 1) := .step reach_swap rfl

theorem freshT_inv : Invariant (State.resetOf cfgT) where
  cfg := by decide
  fits := by constructor <;> decide
  errPhase := by decide
  errCode := by decide
  done h := by cases h
  key h := by cases h
  phase _ := ⟨rfl, rfl⟩

/-- GENKEY's engine steps in that configuration. -/
theorem genkeyT : exec .genkey (State.resetOf cfgT) = .next (makingT .gDraw 0 233 []) ∧
    engineRun 4 (makingT .gDraw 0 233 []) = .next (keyedT []) := by
  refine ⟨rfl, ?_⟩
  have h1 : engineStep (makingT .gDraw 0 233 []) = .next (makingT .gTest 3 234 []) := by
    show Host.Outcome.next (makingT .gTest (candidate cfgT (randBits 234 2)) 234 []) = _
    rw [candidate_drawT]
  have h2 : engineStep (makingT .gTest 3 234 []) = .next (makingT .gCheck 3 234 []) := testT [.engine] [] rfl
  rw [engineRun_succ h1, engineRun_succ h2]; rfl

/-! ## Witnesses: for each obligation with hypotheses, states and operands that meet them together; one for each clause -/

theorem witness_NoStepChangesABuildParameter : ∃ t, step keyed = .next t := ⟨_, rfl⟩

theorem witness_ResetEventReplacesTheWholeState : ∃ (s : State) (es : List Event), s.cfg.wf ∧ s.events = .reset :: es ∧ s.phase = .fault :=
  ⟨{ broken with events := [.reset] }, [], by decide, rfl, rfl⟩

theorem witness_InvariantHoldsAtReset : Config.reference.wf ∧ cfgA.wf ∧ cfgE.wf := by decide

theorem witness_EveryStepKeepsTheInvariant : ∃ s t : State, Invariant s ∧ step s = .next t ∧ busy t = true :=
  ⟨{ running .enc .t with f := 3, events := [] }, _, busy_inv [], rfl, rfl⟩

theorem witness_NoStepIsStuck : ∃ s : State, Invariant s ∧ s.phase = .t := ⟨_, busy_inv [], rfl⟩

theorem witness_KeyInvariantOfReachableStates : ∃ (c : Config) (s : State), Reachable c s ∧ s.keyvalid = true ∧ c.forceTopLow = true ∧ 0 < c.rounds :=
  ⟨_, _, reach_keyedT [], rfl, rfl, by decide⟩

theorem witness_StatusIsTheTabledView :
    (∃ (s : State) (es : List Event), s.cfg.wf ∧ s.events = .read 0x01 :: es ∧ s.phase = .fault) ∧
    (∃ (s : State) (v : Nat) (es : List Event), s.cfg.wf ∧ s.events = .write 0x01 v :: es ∧ s.phase = .idle) ∧
    (∃ s : State, Invariant s ∧ busy s = true) :=
  ⟨⟨{ broken with events := [.read 0x01] }, [], by decide, rfl, rfl⟩,
   ⟨{ keyed with events := [.write 0x01 255] }, 255, [], by decide, rfl, rfl⟩, ⟨_, busy_inv [], rfl⟩⟩

/-- A reset; then steps that change P, RK, KEYVALID, CMDR, RND, PHASE, DONE (an accept), V, L, R, SEED (writes), F, T, ERR (the engine). -/
theorem witness_RegistersAreWrittenByTheirRowsOnly :
    (∃ s t : State, step s = .next t ∧ s.events.head? = some .reset) ∧
    (∃ s t : State, step s = .next t ∧ s.events.head? ≠ some .reset ∧ t.p ≠ s.p ∧ t.rk ≠ s.rk ∧ t.keyvalid ≠ s.keyvalid ∧ t.rnd ≠ s.rnd ∧
      t.phase ≠ s.phase ∧ t.done ≠ s.done) ∧
    (∃ s t : State, step s = .next t ∧ s.events.head? ≠ some .reset ∧ t.cmdr ≠ s.cmdr) ∧
    (∃ s t : State, step s = .next t ∧ s.events.head? ≠ some .reset ∧ t.v ≠ s.v) ∧
    (∃ s t : State, step s = .next t ∧ s.events.head? ≠ some .reset ∧ t.l ≠ s.l ∧ t.r ≠ s.r) ∧
    (∃ s t : State, step s = .next t ∧ s.events.head? ≠ some .reset ∧ t.seed ≠ s.seed) ∧
    (∃ s t : State, step s = .next t ∧ s.events.head? ≠ some .reset ∧ t.f ≠ s.f) ∧
    (∃ s t : State, step s = .next t ∧ s.events.head? ≠ some .reset ∧ t.t ≠ s.t) ∧
    (∃ s t : State, step s = .next t ∧ s.events.head? ≠ some .reset ∧ t.err ≠ s.err) :=
  ⟨⟨{ keyed with events := [.reset] }, _, rfl, rfl⟩,
   ⟨{ keyed with events := [.write 0x00 0x01] }, _, rfl, by decide, by decide, by decide, by decide, by decide, by decide, by decide⟩,
   ⟨{ keyed with events := [.write 0x00 0x02] }, _, rfl, by decide, by decide⟩,
   ⟨{ keyed with events := [.write 0x03 100] }, _, rfl, by decide, by decide⟩,
   ⟨{ running .enc .swap with l := 2, r := 9 }, _, rfl, by decide, by decide, by decide⟩,
   ⟨{ keyed with events := [.write 0x02 5] }, _, rfl, by decide, by decide⟩,
   ⟨{ running .enc .f with r := 9 }, _, rfl, by decide, by decide⟩,
   ⟨{ running .enc .t with f := 3 }, _, rfl, by decide, by decide⟩,
   ⟨{ fresh with events := [.write 0x00 0x02] }, _, rfl, by decide, by decide⟩⟩

theorem witness_SeedAdvancesByOnePerDraw :
    (∃ s t : State, engineStep s = .next t ∧ s.seed < 2 ^ s.cfg.seedBits ∧ s.phase = .gDraw ∧ s.seed ≠ 2 ^ s.cfg.seedBits - 1) ∧
    (∃ s t : State, engineStep s = .next t ∧ s.seed < 2 ^ s.cfg.seedBits ∧ s.phase = .gKey ∧ s.seed ≠ 2 ^ s.cfg.seedBits - 1) ∧
    (∃ s t : State, engineStep s = .next t ∧ s.seed < 2 ^ s.cfg.seedBits ∧ s.seed = 2 ^ s.cfg.seedBits - 1 ∧ s.phase = .gDraw) ∧
    (∃ s t : State, engineStep s = .next t ∧ s.seed < 2 ^ s.cfg.seedBits ∧ ¬ (s.phase = .gDraw ∨ s.phase = .gKey)) :=
  ⟨⟨{ making .gDraw with seed := 254 }, _, rfl, by decide, rfl, by decide⟩,
   ⟨{ making .gKey with p := 13, seed := 254 }, _, rfl, by decide, rfl, by decide⟩,
   ⟨{ making .gDraw with seed := 255 }, _, rfl, by decide, by decide, rfl⟩,
   ⟨{ running .enc .f with r := 9 }, _, rfl, by decide, by decide⟩⟩

/-- The bytes 0x00, 0x06 and 0xFF written in IDLE. -/
theorem witness_OpcodeMapIsComplete : ∀ b ∈ [0x00#8, 0x06#8, 0xFF#8], (b.toNat = 0 ∨ 6 ≤ b.toNat) ∧
    ∃ (s : State) (v : Nat) (es : List Event), s.cfg.wf ∧ s.phase = .idle ∧ s.events = .write 0x00 v :: es ∧ v % 256 = b.toNat := by
  intro b hb
  refine ⟨by revert b; decide, { keyed with events := [.write 0x00 (256 + b.toNat)] }, 256 + b.toNat, [], by show cfgA.wf; decide, rfl, rfl, ?_⟩
  have := b.isLt
  omega

theorem witness_StepRunsTheDecodedCommand : ∀ i ∈ [Instr.genkey, .enc, .dec, .split, .join],
    ∃ (s : State) (v : Nat) (es : List Event), s.cfg.wf ∧ s.events = .write 0x00 v :: es ∧ decode (BitVec.ofNat 8 v) = .ok i := by
  intro i _
  exact ⟨{ keyed with events := [.write 0x00 (encode i).toNat] }, _, [], by show cfgA.wf; decide, rfl, by cases i <;> rfl⟩

/-- Every index, in IDLE, while busy and in FAULT; and the ends of the ranges of indices. -/
theorem witness_HostReadGivesTheIndexedRegister :
    (∀ (idx : Byte), ∃ (s : State) (es : List Event), s.cfg.wf ∧ s.events = .read idx :: es ∧ busy s = false) ∧
    (∀ (idx : Byte), ∃ (s : State) (es : List Event), s.cfg.wf ∧ s.events = .read idx :: es ∧ busy s = true) ∧
    ((0x80#8).toNat = 0x80 + 0 ∧ (0x83#8).toNat = 0x80 + 3 ∧ 3 < cfgA.rounds) ∧
    (∀ idx ∈ [0x0A#8, 0x7F#8], 0x0A ≤ idx.toNat ∧ idx.toNat < 0x80) ∧ (∀ idx ∈ [0x84#8, 0xFF#8], 0x80 + cfgA.rounds ≤ idx.toNat) :=
  ⟨fun idx => ⟨{ broken with events := [.read idx] }, [], by show cfgA.wf; decide, rfl, rfl⟩,
   fun idx => ⟨{ running .enc .t with events := [.read idx] }, [], by show cfgA.wf; decide, rfl, rfl⟩, by decide, by decide, by decide⟩

theorem witness_HostWriteActsByIndexAndPhase :
    (∀ (idx : Byte) (v : Nat), ∃ (s : State) (es : List Event), s.cfg.wf ∧ s.events = .write idx v :: es ∧ s.phase ≠ .idle) ∧
    (∀ (idx : Byte) (v : Nat), ∃ (s : State) (es : List Event), s.cfg.wf ∧ s.events = .write idx v :: es ∧ s.phase = .idle) ∧
    (∀ idx ∈ [0x06#8, 0x80#8, 0xFF#8], 6 ≤ idx.toNat) :=
  ⟨fun idx v => ⟨{ broken with events := [.write idx v] }, [], by show cfgA.wf; decide, rfl, by intro h; cases h⟩,
   fun idx v => ⟨{ keyed with events := [.write idx v] }, [], by show cfgA.wf; decide, rfl, rfl⟩, by decide⟩

theorem witness_BusyEngineIsUndisturbed :
    (∃ (s : State) (es : List Event), s.cfg.wf ∧ busy s = true ∧ s.events = .write 0x00 0x01 :: es) ∧
    (∃ (s : State) (es : List Event), s.cfg.wf ∧ busy s = true ∧ s.events = .read 0x01 :: es) ∧
    (∃ (s : State) (es : List Event), s.cfg.wf ∧ busy s = true ∧ s.events = .read 0x03 :: es) :=
  ⟨⟨{ running .enc .t with events := [.write 0x00 0x01] }, [], by decide, rfl, rfl⟩,
   ⟨{ running .enc .t with events := [.read 0x01] }, [], by decide, rfl, rfl⟩,
   ⟨{ running .enc .t with events := [.read 0x03] }, [], by decide, rfl, rfl⟩⟩

theorem witness_ReadAfterWriteReturnsTheTruncatedValue : ∀ x ∈ [Reg.seed, .v, .l, .r],
    ∃ (s : State) (v : Nat) (es : List Event), s.cfg.wf ∧ s.phase = .idle ∧ (x = .seed ∨ x = .v ∨ x = .l ∨ x = .r) ∧
      s.events = script [.wr x v, .rd x] ++ es := by
  intro x hx
  exact ⟨{ keyed with events := script [.wr x 300, .rd x] }, 300, [], by show cfgA.wf; decide, rfl, by simpa using hx, rfl⟩

/-- A carry over p, and the two orders of a and b. -/
theorem witness_ModularSumAndDifferenceAreResidues :
    (0 < 13 ∧ 1 < 11 ∧ 11 < 13) ∧ (0 < 13 ∧ 8 ≤ 10 ∧ 10 < 13) ∧ (0 < 13 ∧ (3 : Nat) < 13 ∧ (3 + 11) % 13 = 1 % 13) := by decide

theorem witness_ModularInverseIsTheUniqueInverse :
    (0 < 13 ∧ Nat.gcd 9 13 = 1 ∧ 1 < 13 ∧ (3 : Nat) < 13 ∧ (9 * 3) % 13 = 1 % 13) ∧ (0 < 1 ∧ Nat.gcd 0 1 = 1) := by decide

theorem witness_DrawsStayInTheirRanges : 0 < 1 ∧ 0 < 13 := by decide

theorem witness_StepGDrawDrawsACandidate :
    (∃ s : State, s.cfg.wf ∧ s.phase = .gDraw ∧ s.seed = 2 ^ s.cfg.seedBits - 1) ∧
    (∃ s : State, s.cfg.wf ∧ s.phase = .gDraw ∧ s.seed ≠ 2 ^ s.cfg.seedBits - 1 ∧ s.cfg.forceTopLow = true) ∧
    (∃ s : State, s.cfg.wf ∧ s.phase = .gDraw ∧ s.seed ≠ 2 ^ s.cfg.seedBits - 1 ∧ s.cfg.forceTopLow = false) :=
  ⟨⟨{ making .gDraw with seed := 255 }, by decide, rfl, by decide⟩,
   ⟨{ making .gDraw with seed := 254 }, by decide, rfl, by decide, rfl⟩,
   ⟨{ making .gDraw with cfg := cfgE }, by decide, rfl, by decide, rfl⟩⟩

/-- A prime candidate, and the candidate 13. That the tester rejects something is open (R90): the second clause is for whichever it rejects. -/
theorem witness_StepGTestMovesThePhaseOnly : ∃ s : State, s.phase = .gTest ∧ primeTest s.p s.cfg.certainty s.seed = true ∧ Nat.Prime s.p :=
  ⟨{ making .gTest with p := 13, seed := 235 }, rfl, primeTest_of_prime _ _ _ (by show Nat.Prime 13; norm_num), by show Nat.Prime 13; norm_num⟩

theorem witness_PrimeLoopEndsByTheSeedBound :
    (∃ s : State, Invariant s ∧ s.phase = .gDraw ∧ s.seed = 233) ∧ (∃ s : State, Invariant s ∧ s.phase = .gDraw ∧ s.seed = 255) :=
  ⟨⟨_, making_inv 233 (by decide), rfl, rfl⟩, ⟨_, making_inv 255 (by decide), rfl, rfl⟩⟩

theorem witness_GenkeyAcceptDestroysTheKey : ∃ s : State, s.phase = .idle ∧ s.keyvalid = true := ⟨keyed, rfl, rfl⟩

theorem witness_StepGCheckRejectsZeroAndEven :
    (∃ s : State, s.phase = .gCheck ∧ s.p = 0) ∧ (∃ s : State, s.phase = .gCheck ∧ s.p % 2 = 0 ∧ s.p ≠ 0) ∧
    (∃ s : State, s.phase = .gCheck ∧ s.p ≠ 0 ∧ s.p % 2 = 1) ∧ (∃ s : State, s.phase = .gCheck ∧ Invariant s ∧ s.cfg.forceTopLow = true) :=
  ⟨⟨making .gCheck, rfl, rfl⟩, ⟨{ making .gCheck with p := 2 }, rfl, rfl, by decide⟩, ⟨{ making .gCheck with p := 1 }, rfl, by decide, rfl⟩,
   ⟨_, rfl, check_inv, rfl⟩⟩

theorem witness_StepGKeyDrawsOneRoundKey :
    (∃ s : State, s.phase = .gKey ∧ 0 < s.p ∧ s.rnd < s.cfg.rounds ∧ s.rk.length = s.cfg.rounds ∧ s.seed = 2 ^ s.cfg.seedBits - 1) ∧
    (∃ s : State, s.phase = .gKey ∧ 0 < s.p ∧ s.rnd < s.cfg.rounds ∧ s.rk.length = s.cfg.rounds ∧ s.seed ≠ 2 ^ s.cfg.seedBits - 1 ∧
      s.rnd + 1 = s.cfg.rounds) ∧
    (∃ s : State, s.phase = .gKey ∧ 0 < s.p ∧ s.rnd < s.cfg.rounds ∧ s.rk.length = s.cfg.rounds ∧ s.seed ≠ 2 ^ s.cfg.seedBits - 1 ∧
      s.rnd + 1 ≠ s.cfg.rounds) :=
  ⟨⟨{ making .gKey with p := 13, seed := 255 }, rfl, by decide, by decide, rfl, by decide⟩,
   ⟨{ making .gKey with p := 13, rnd := 3 }, rfl, by decide, by decide, rfl, by decide, rfl⟩,
   ⟨{ making .gKey with p := 13 }, rfl, by decide, by decide, rfl, by decide, by decide⟩⟩

theorem witness_KeyIsImmutableBetweenGenkeys : ∃ s t : State, Invariant s ∧ s.keyvalid = true ∧ s.events.head? ≠ some .reset ∧
    ¬ AcceptsByte s 0x01 ∧ step s = .next t :=
  ⟨{ running .enc .t with f := 3, events := [] }, _, busy_inv [], rfl, (fun h => by cases h), (fun h => by obtain ⟨h, -⟩ := h; cases h), rfl⟩

/-- With W = 2 and forced bits the first candidate is 3, which passes: one attempt. -/
theorem witness_GenkeyEndsWithTheKeyOfItsSeeds : ∃ (s : State) (a p : Nat), Invariant s ∧ s.phase = .idle ∧ 1 ≤ a ∧
    s.seed + a + s.cfg.rounds ≤ 2 ^ s.cfg.seedBits - 1 ∧
    (∀ j, 1 ≤ j → j < a → primeTest (candidate s.cfg (randBits (s.seed + j) s.cfg.w)) s.cfg.certainty (s.seed + j) = false) ∧
    p = candidate s.cfg (randBits (s.seed + a) s.cfg.w) ∧ primeTest p s.cfg.certainty (s.seed + a) = true ∧ p % 2 = 1 :=
  ⟨State.resetOf cfgT, 1, 3, freshT_inv, rfl, by decide, by decide, fun j h1 h2 => by omega, candidate_drawT.symm,
   primeTest_of_prime _ _ _ (by norm_num), rfl⟩

theorem witness_EveryCompletedGenkeyEndsAsListed : ∃ (s t u : State) (n : Nat), Invariant s ∧ s.phase = .idle ∧ exec .genkey s = .next t ∧
    engineRun n t = .next u ∧ u.phase = .idle :=
  ⟨_, _, _, 4, freshT_inv, rfl, genkeyT.1, genkeyT.2, rfl⟩

theorem witness_StepFInvertsTheRightHalf :
    (∃ s : State, s.phase = .f ∧ 0 < s.p ∧ s.r = 0) ∧ (∃ s : State, s.phase = .f ∧ 0 < s.p ∧ s.r ≠ 0 ∧ Nat.gcd s.r s.p ≠ 1) ∧
    (∃ s : State, s.phase = .f ∧ 0 < s.p ∧ s.r ≠ 0 ∧ Nat.gcd s.r s.p = 1 ∧ ¬ Nat.Prime s.p) ∧
    (∃ s : State, s.phase = .f ∧ 0 < s.p ∧ Nat.Prime s.p ∧ 0 < s.r ∧ s.r < s.p) :=
  ⟨⟨running .enc .f, rfl, by decide, rfl⟩, ⟨{ running .enc .f with p := 9, r := 3 }, rfl, by decide, by decide, by decide⟩,
   ⟨{ running .enc .f with p := 9, r := 4 }, rfl, by decide, by decide, by decide, by show ¬ Nat.Prime 9; norm_num⟩,
   ⟨{ running .enc .f with r := 12 }, rfl, by decide, by show Nat.Prime 13; norm_num, by decide, by decide⟩⟩

/-- The last round of an ENC and of a DEC. -/
theorem witness_StepTAddsTheRoundKey :
    (∃ s : State, s.phase = .t ∧ 0 < s.p ∧ s.rnd < s.cfg.rounds ∧ s.rk.length = s.cfg.rounds ∧ s.cmdr.extractLsb' 0 4 = 2) ∧
    (∃ s : State, s.phase = .t ∧ 0 < s.p ∧ s.rnd < s.cfg.rounds ∧ s.rk.length = s.cfg.rounds ∧ s.cmdr.extractLsb' 0 4 = 3) :=
  ⟨⟨{ running .enc .t with rnd := 3 }, rfl, by decide, by decide, rfl, by decide⟩,
   ⟨{ running .dec .t with rnd := 3 }, rfl, by decide, by decide, rfl, by decide⟩⟩

theorem witness_StepAccUpdatesTheLeftHalf :
    (∃ s : State, s.phase = .acc ∧ 0 < s.p ∧ s.cmdr.extractLsb' 0 4 = 2) ∧ (∃ s : State, s.phase = .acc ∧ 0 < s.p ∧ s.cmdr.extractLsb' 0 4 = 3) :=
  ⟨⟨running .enc .acc, rfl, by decide, by decide⟩, ⟨running .dec .acc, rfl, by decide, by decide⟩⟩

theorem witness_StepSwapSwapsUnlessLastRound :
    (∃ s : State, Invariant s ∧ s.phase = .swap ∧ s.rnd ≠ s.cfg.rounds - 1) ∧ (∃ s : State, Invariant s ∧ s.phase = .swap ∧ s.rnd = s.cfg.rounds - 1) :=
  ⟨⟨_, swap_inv 2 9 2 (by decide) (by decide) (by decide), rfl, by decide⟩, ⟨_, swap_inv 2 9 3 (by decide) (by decide) (by decide), rfl, by decide⟩⟩

theorem witness_RoundFunctionIsABijectionForAPrime : Nat.Prime 13 ∧ 12 < 13 := by norm_num

theorem witness_HalvesStayResiduesDuringTheRounds :
    (∃ (c : Config) (s : State), Reachable c s ∧ s.phase = .f) ∧ (∃ (c : Config) (s : State), Reachable c s ∧ s.phase = .t) ∧
    (∃ (c : Config) (s : State), Reachable c s ∧ s.phase = .acc) ∧ (∃ (c : Config) (s : State), Reachable c s ∧ s.phase = .swap) ∧
    (∃ (c : Config) (s : State), Reachable c s ∧ s.phase = .join ∧ (s.cmdr = 0x02 ∨ s.cmdr = 0x03)) :=
  ⟨⟨_, _, reach_f, rfl⟩, ⟨_, _, reach_t, rfl⟩, ⟨_, _, reach_acc, rfl⟩, ⟨_, _, reach_swap, rfl⟩, ⟨_, _, reach_join, rfl, .inl rfl⟩⟩

theorem witness_JoinOfACipherNeverOverflows :
    (∃ s : State, Invariant s ∧ s.phase = .join ∧ s.cmdr = 0x02) ∧ (∃ s : State, Invariant s ∧ s.phase = .join ∧ s.cmdr = 0x03) :=
  ⟨⟨_, join_inv .enc, rfl, rfl⟩, ⟨_, join_inv .dec, rfl, rfl⟩⟩

/-- V1 and V2: ENC of 100 and DEC of 23. -/
theorem witness_EncAndDecCompleteWithTheClosedForm :
    (∃ (s : State) (h : Halves), Invariant s ∧ s.phase = .idle ∧ s.keyvalid = true ∧ cipherHalves .enc s.p s.rk s.v s.f s.t = some h) ∧
    (∃ (s : State) (h : Halves), Invariant s ∧ s.phase = .idle ∧ s.keyvalid = true ∧ cipherHalves .dec s.p s.rk s.v s.f s.t = some h) :=
  ⟨⟨_, { l := 1, r := 10, f := 4, t := 11 }, keyed_inv 100 0 0 239 [] (by decide) (by decide) (by decide) (by decide), rfl, rfl, by decide +kernel⟩,
   ⟨_, { l := 7, r := 9, f := 3, t := 8 }, keyed_inv 23 0 0 239 [] (by decide) (by decide) (by decide) (by decide), rfl, rfl, by decide +kernel⟩⟩

/-- V13 and V14: ENC of 3 under the modulus 9 and of 4 under the modulus 15; a DEC of 3 under 9. -/
theorem witness_EncAndDecFaultWhereTheClosedFormStops : ∀ x ∈ [(Dir.enc, 9, 3), (.enc, 15, 4), (.dec, 9, 3)],
    ∃ s : State, s.cfg.wf ∧ 0 < s.p ∧ s.p < 2 ^ s.cfg.w ∧ s.rk.length = s.cfg.rounds ∧ s.phase = .idle ∧ s.keyvalid = true ∧
      s.p = x.2.1 ∧ s.v = x.2.2 ∧ cipherHalves x.1 s.p s.rk s.v s.f s.t = none := by
  intro x hx
  refine ⟨{ keyed with cfg := { cfgA with rounds := 2 }, p := x.2.1, rk := [1, 2], v := x.2.2 }, by show Config.wf { cfgA with rounds := 2 }; decide,
    ?_, ?_, rfl, rfl, rfl, rfl, rfl, ?_⟩ <;> revert x <;> decide +kernel

/-- Two states that differ in SEED, L, R and in what the host did before. -/
theorem witness_CipherDependsOnValueKeyAndDirectionOnly : ∃ (s1 s2 t1 t2 u1 : State), Invariant s1 ∧ Invariant s2 ∧ s1.phase = .idle ∧ s2.phase = .idle ∧
    s1.keyvalid = true ∧ s2.keyvalid = true ∧ s1.cfg = s2.cfg ∧ s1.v = s2.v ∧ s1.p = s2.p ∧ s1.rk = s2.rk ∧ s1 ≠ s2 ∧
    exec (commandOf .enc) s1 = .next t1 ∧ exec (commandOf .enc) s2 = .next t2 ∧
    engineRun (2 + 4 * s1.cfg.rounds) t1 = .next u1 ∧ u1.phase = .idle :=
  ⟨{ keyed with v := 100, l := 0, r := 0, seed := 239, events := [] }, { keyed with v := 100, l := 200, r := 15, seed := 255, events := [] }, _, _, _,
   keyed_inv 100 0 0 239 [] (by decide) (by decide) (by decide) (by decide), keyed_inv 100 200 15 255 [] (by decide) (by decide) (by decide) (by decide),
   rfl, rfl, rfl, rfl, rfl, rfl, rfl, rfl, by decide, rfl, rfl, rfl, rfl⟩

/-- The largest value below P^2, with a prime P. -/
theorem witness_EncAndDecRoundTripBelowPSquared :
    ∃ s t u : State, Invariant s ∧ s.phase = .idle ∧ s.keyvalid = true ∧ s.v < s.p ^ 2 ∧ s.v = 168 ∧ Nat.Prime s.p ∧
      exec (commandOf .enc) s = .next t ∧ engineRun (2 + 4 * s.cfg.rounds) t = .next u ∧ u.phase = .idle :=
  ⟨{ keyed with v := 168, l := 0, r := 0, seed := 239, events := [] }, _, _,
   keyed_inv 168 0 0 239 [] (by decide) (by decide) (by decide) (by decide), rfl, rfl, by decide, rfl, by show Nat.Prime 13; norm_num, rfl, rfl, rfl⟩

/-- P^2 itself. -/
theorem witness_OversizedValuesDoNotRoundTrip : 0 < 13 ∧ [5, 0, 12, 7] ≠ [] ∧ 13 ^ 2 ≤ 169 ∧ cipher .enc 13 [5, 0, 12, 7] 169 = some 74 := by
  decide +kernel

theorem witness_SplitCompletesWithQuotientAndRemainder :
    (∃ s : State, s.phase = .idle ∧ s.keyvalid = true ∧ 0 < s.p) ∧ (∃ s : State, s.phase = .idle ∧ s.keyvalid = false) :=
  ⟨⟨keyed, rfl, rfl, by decide⟩, ⟨fresh, rfl, rfl⟩⟩

/-- V16: 255 fits and 256 does not. -/
theorem witness_JoinCompletesOrOverflows :
    (∃ s : State, s.phase = .idle ∧ s.keyvalid = true ∧ s.l * s.p + s.r < 2 ^ s.cfg.vw ∧ s.l * s.p + s.r = 255) ∧
    (∃ s : State, s.phase = .idle ∧ s.keyvalid = true ∧ 2 ^ s.cfg.vw ≤ s.l * s.p + s.r ∧ s.l * s.p + s.r = 256) ∧
    (∃ s : State, s.phase = .idle ∧ s.keyvalid = false) :=
  ⟨⟨{ keyed with l := 19, r := 8 }, rfl, rfl, by decide, rfl⟩, ⟨{ keyed with l := 19, r := 9 }, rfl, rfl, by decide, rfl⟩, ⟨fresh, rfl, rfl⟩⟩

theorem witness_StepSplitDividesByP :
    (∃ s : State, s.phase = .split ∧ 0 < s.p ∧ s.cmdr.extractLsb' 0 4 = 4) ∧ (∃ s : State, s.phase = .split ∧ 0 < s.p ∧ s.cmdr.extractLsb' 0 4 ≠ 4) :=
  ⟨⟨running .split .split, rfl, by decide, by decide⟩, ⟨running .dec .split, rfl, by decide, by decide⟩⟩

theorem witness_StepJoinRebuildsTheValue :
    (∃ s : State, s.phase = .join ∧ 2 ^ s.cfg.vw ≤ s.l * s.p + s.r) ∧ (∃ s : State, s.phase = .join ∧ s.l * s.p + s.r < 2 ^ s.cfg.vw) :=
  ⟨⟨{ running .join .join with l := 19, r := 9 }, rfl, by decide⟩, ⟨{ running .join .join with l := 19, r := 8 }, rfl, by decide⟩⟩

/-- A well-formed pair, and V16's pair (0, 15) with R not below P. -/
theorem witness_SplitAndJoinAreInverse :
    (∃ s : State, Invariant s ∧ s.phase = .idle ∧ s.keyvalid = true ∧ s.l * s.p + s.r < 2 ^ s.cfg.vw ∧ s.r < s.p) ∧
    (∃ s : State, Invariant s ∧ s.phase = .idle ∧ s.keyvalid = true ∧ s.l * s.p + s.r < 2 ^ s.cfg.vw ∧ ¬ s.r < s.p) :=
  ⟨⟨_, keyed_inv 200 7 9 239 [] (by decide) (by decide) (by decide) (by decide), rfl, rfl, by decide, by decide⟩,
   ⟨_, keyed_inv 200 0 15 239 [] (by decide) (by decide) (by decide) (by decide), rfl, rfl, by decide, by decide⟩⟩

/-- Every byte can be written in IDLE, with a key and without; the ends of each clause's range of fields. -/
theorem witness_CommandAcceptActsAsStated :
    (∀ v : Nat, ∃ (s : State) (es : List Event), s.cfg.wf ∧ s.phase = .idle ∧ s.events = .write 0x00 v :: es ∧ s.keyvalid = true) ∧
    (∀ v : Nat, ∃ (s : State) (es : List Event), s.cfg.wf ∧ s.phase = .idle ∧ s.events = .write 0x00 v :: es ∧ s.keyvalid = false) ∧
    (∀ b ∈ [0x00#8, 0x06#8, 0x12#8, 0xFF#8], b.extractLsb' 4 4 ≠ 0 ∨ (b.extractLsb' 0 4).toNat = 0 ∨ 6 ≤ (b.extractLsb' 0 4).toNat) ∧
    (∀ b ∈ [0x02#8, 0x05#8], b.extractLsb' 4 4 = 0 ∧ 2 ≤ (b.extractLsb' 0 4).toNat ∧ (b.extractLsb' 0 4).toNat ≤ 5) ∧
    ((0x01#8).extractLsb' 4 4 = 0 ∧ ((0x01#8).extractLsb' 0 4).toNat = 1) ∧
    (∀ b ∈ [0x02#8, 0x04#8], b.extractLsb' 4 4 = 0 ∧ 2 ≤ (b.extractLsb' 0 4).toNat ∧ (b.extractLsb' 0 4).toNat ≤ 4) ∧
    ((0x05#8).extractLsb' 4 4 = 0 ∧ ((0x05#8).extractLsb' 0 4).toNat = 5) :=
  ⟨fun v => ⟨{ keyed with events := [.write 0x00 v] }, [], by show cfgA.wf; decide, rfl, rfl, rfl⟩,
   fun v => ⟨{ fresh with events := [.write 0x00 v] }, [], by show cfgA.wf; decide, rfl, rfl, rfl⟩, by decide, by decide, by decide, by decide, by decide⟩

theorem witness_CommandsAreDroppedOutsideIdle : ∃ s t : State, s.phase ≠ .idle ∧ busy s = true ∧ t.phase ≠ .idle ∧ busy t = false :=
  ⟨running .enc .t, broken, by decide, rfl, by decide, rfl⟩

theorem witness_AcceptLeavesEverythingElseUnchanged : ∀ i ∈ [Instr.genkey, .enc, .dec, .split, .join],
    (∃ t, exec i keyed = .next t ∧ t.cmdr ≠ broken.cmdr ∧ t.done ≠ keyed.done) ∧ (i ≠ .genkey → ∃ t, exec i fresh = .next t ∧ t.err ≠ fresh.err) := by
  intro i _
  cases i
  · exact ⟨⟨_, rfl, by decide, by decide⟩, fun h => absurd rfl h⟩
  all_goals exact ⟨⟨_, rfl, by decide, by decide⟩, fun _ => ⟨_, rfl, by decide⟩⟩

theorem witness_PhaseTransitionsAreTheTabledOnes : ∃ s t : State, engineStep s = .next t ∧ s.phase = .f ∧ t.phase = .fault :=
  ⟨{ running .enc .f with p := 9, r := 3 }, _, rfl, rfl, rfl⟩

/-- SeedOverflow and ValueOverflow by the engine, IllegalCommand and NoKey by the accept. -/
theorem witness_FaultEntryIsPrecise :
    (∃ s t : State, Invariant s ∧ step s = .next t ∧ s.phase ≠ .fault ∧ t.phase = .fault ∧ t.err = 6) ∧
    (∃ s t : State, Invariant s ∧ step s = .next t ∧ s.phase ≠ .fault ∧ t.phase = .fault ∧ t.err = 5) ∧
    (∃ s t : State, Invariant s ∧ step s = .next t ∧ s.phase ≠ .fault ∧ t.phase = .fault ∧ t.err = 3) ∧
    (∃ s t : State, Invariant s ∧ step s = .next t ∧ s.phase ≠ .fault ∧ t.phase = .fault ∧ t.err = 4) :=
  ⟨⟨_, _, making_inv 255 (by decide), rfl, by decide, rfl, rfl⟩,
   ⟨_, _, joining_inv 19 9 (by decide) (by decide), rfl, by decide, rfl, rfl⟩,
   ⟨_, _, keyed_inv 0 0 0 239 [.write 0x00 0x12] (by decide) (by decide) (by decide) (by decide), rfl, by decide, rfl, rfl⟩,
   ⟨{ fresh with events := [.write 0x00 0x05] }, _,
    inv_making rfl rfl rfl (by decide) (by decide) (by decide) rfl (fun _ => ⟨rfl, rfl⟩), rfl, by decide, rfl, rfl⟩⟩

theorem witness_FaultIsStickyUntilReset :
    (∃ s : State, s.cfg.wf ∧ s.phase = .fault ∧ s.events.head? ≠ some .reset) ∧ (∃ s : State, s.cfg.wf ∧ s.phase = .fault ∧ s.events.head? = some .reset) :=
  ⟨⟨{ broken with events := [.write 0x00 0x01] }, by decide, rfl, by decide⟩, ⟨{ broken with events := [.reset] }, by decide, rfl, rfl⟩⟩

theorem witness_EveryRunningCommandEnds :
    (∃ s : State, Invariant s ∧ busy s = true ∧ s.phase = .t) ∧ (∃ s : State, Invariant s ∧ busy s = true ∧ s.phase = .gDraw) :=
  ⟨⟨_, busy_inv [], rfl, rfl⟩, ⟨_, making_inv 233 (by decide), rfl, rfl⟩⟩

/-- The last two engine steps of an ENC, with a read and a write of the host before and between them. -/
theorem witness_InterleavingDoesNotChangeTheResult : ∃ (s : State) (es : List Event) (u : State), s.cfg.wf ∧ es.count .engine = 1 ∧
    (∀ e ∈ es, e = .engine ∨ (∃ idx, e = .read idx) ∨ ∃ idx v, e = .write idx v) ∧
    (∀ j, j ≤ es.count .engine → ∃ w, engineRun j s = .next w ∧ busy w = true) ∧
    engineRun (es.count .engine + 1) s = .next u := by
  refine ⟨{ running .enc .swap with l := 1, r := 10, rnd := 3 }, [.read 0x03, .engine, .write 0x03 7], _, by decide, rfl, by simp, ?_, rfl⟩
  intro j hj
  have hj : j ≤ 1 := hj
  rcases Nat.le_one_iff_eq_zero_or_eq_one.1 hj with rfl | rfl
  · exact ⟨_, rfl, rfl⟩
  · exact ⟨_, rfl, rfl⟩

theorem witness_WaitEndsWithBusyClear : ∃ (s : State) (es : List Event), Invariant s ∧ s.events = .wait :: es ∧ busy s = true :=
  ⟨_, [], busy_inv [.wait], rfl, rfl⟩

end Sys2Proof.Tests
end

section
/-! PROOFS. The state (10_state.md): reset values (R29), the STATUS view (R25), the write permissions (R30) and the key invariant (R26). -/

namespace Sys2Proof.Machine

variable {s t : State}

/-! ## Reset values -/

theorem status_resetOf (c : Config) : status (State.resetOf c) = 0x00 := by
  simp only [status, busy, faulted, resetOf_phase, resetOf_err, resetOf_keyvalid, resetOf_done]
  decide

/-- Settles O2: each value is read off the reset state. -/
theorem resetStateIsAsTabled : Obligations.ResetStateIsAsTabled := by
  intro c
  have hrk : ∀ i, i < c.rounds → (State.resetOf c).rk[i]? = some 0 := fun i hi => by simp [hi]
  exact ⟨_, rfl, rfl, List.length_replicate, hrk, rfl, rfl, rfl, rfl, rfl, rfl, rfl, rfl, rfl, rfl, rfl, rfl,
    status_resetOf c, rfl⟩

/-! ## The STATUS view -/

theorem busy_iff : busy s = true ↔ s.phase ≠ .idle ∧ s.phase ≠ .fault := by simp [busy]

theorem faulted_iff : faulted s = true ↔ s.phase = .fault := by simp [faulted]

/-- The layout of STATUS is a fact about 256 words, one for each value of its five parts. -/
theorem status_bits (s : State) :
    (status s).getLsbD 0 = busy s ∧ (status s).getLsbD 1 = s.done ∧ (status s).getLsbD 2 = s.keyvalid ∧
      (status s).getLsbD 3 = faulted s ∧ (status s).extractLsb' 4 4 = s.err := by
  unfold status
  generalize s.err = err, faulted s = fault, s.keyvalid = keyvalid, s.done = done, busy s = busy
  revert err fault keyvalid done busy
  decide

/-- STATUS is specified in every phase, so a read of it draws no free value (R45). -/
theorem hostRead_status (s : State) : hostRead 0x01 s = { s with reads := (status s).toNat :: s.reads } := by
  simp [hostRead, readValue, readIsFree, indexOf]

/-- STATUS is a view: a write to its index does nothing in any phase (R43). -/
theorem hostWrite_status (s : State) (v : Nat) : hostWrite 0x01 v s = .next s := by
  unfold hostWrite
  split
  · rfl
  · rfl

/-- Settles O8: the bits by `status_bits`, the accesses by what index 0x01 does, the exclusiveness by where DONE may be 1 (R23). -/
theorem statusIsTheTabledView : Obligations.StatusIsTheTabledView := by
  refine ⟨fun s => ?_, ?_, ?_, status_resetOf, ?_⟩
  · obtain ⟨hbusy, hdone, hkey, hfault, herr⟩ := status_bits s
    rw [hbusy, hfault, busy_iff, faulted_iff]
    exact ⟨.rfl, hdone, hkey, .rfl, herr⟩
  · intro s es hc he
    rw [step_cons hc he]
    exact congrArg Host.Outcome.next (hostRead_status _)
  · intro s v es hc he
    rw [step_cons hc he]
    exact hostWrite_status _ v
  · intro s hs
    rw [busy_iff, faulted_iff]
    exact ⟨fun ⟨hb, hd⟩ => hb.1 (hs.done hd).1, fun ⟨hb, hf⟩ => hb.2 hf, fun ⟨hd, hf⟩ => by simp [(hs.done hd).1] at hf⟩

/-! ## The write permissions -/

/-- What an engine step writes, register by register (the engine's entries of R30). -/
structure EngineFrame (s s' : State) : Prop where
  cfg : s'.cfg = s.cfg
  p : s'.p = s.p ∨ s.phase = .gDraw
  rk : s'.rk = s.rk ∨ s.phase = .gKey
  keyvalid : s'.keyvalid = s.keyvalid ∨ s.phase = .gKey ∧ s.rnd + 1 = s.cfg.rounds ∧ s'.keyvalid = true
  v : s'.v = s.v ∨ s.phase = .join
  l : s'.l = s.l ∨ s.phase = .split ∨ s.phase = .acc ∨ s.phase = .swap
  r : s'.r = s.r ∨ s.phase = .split ∨ s.phase = .swap
  f : s'.f = s.f ∨ s.phase = .f
  t : s'.t = s.t ∨ s.phase = .t
  rnd : s'.rnd = s.rnd ∨ s.phase = .swap ∨ s.phase = .gKey
  phase : s'.phase = s.phase ∨ busy s = true
  cmdr : s'.cmdr = s.cmdr
  seed : s'.seed = s.seed ∨ s.phase = .gDraw ∨ s.phase = .gKey
  done : s'.done = s.done ∨ s'.done = true ∧ s'.phase = .idle
  err : s'.err = s.err ∨ s'.phase = .fault

theorem engineStep_frame (h : engineStep s = .next t) : EngineFrame s t := by
  unfold engineStep at h
  cases hp : s.phase <;> simp only [hp] at h
  case idle => cases h; constructor <;> simp
  case fault => cases h; constructor <;> simp
  case gDraw => obtain ⟨-, rfl⟩ | ⟨-, rfl⟩ := stepGDraw_cases h <;> constructor <;> simp [hp, busy]
  case gTest => obtain ⟨-, rfl⟩ | ⟨-, rfl⟩ := stepGTest_cases h <;> constructor <;> simp [hp, busy]
  case gCheck => obtain ⟨-, rfl⟩ | ⟨-, -, rfl⟩ := stepGCheck_cases h <;> constructor <;> simp [hp, busy]
  case gKey =>
    obtain ⟨-, -, ⟨-, rfl⟩ | ⟨-, hlast, rfl⟩ | ⟨-, -, rfl⟩⟩ := stepGKey_cases h <;> constructor <;> simp [busy, *]
  case split => obtain ⟨-, ⟨-, rfl⟩ | ⟨-, rfl⟩⟩ := stepSplit_cases h <;> constructor <;> simp [hp, busy]
  case f => obtain ⟨-, rfl⟩ | ⟨-, -, -, rfl⟩ | ⟨-, -, -, rfl⟩ := stepF_cases h <;> constructor <;> simp [hp, busy]
  case t => obtain ⟨-, d, k, -, -, rfl⟩ := stepT_cases h; constructor <;> simp [hp, busy]
  case acc => obtain ⟨-, d, -, rfl⟩ := stepAcc_cases h; constructor <;> simp [hp, busy]
  case swap => obtain ⟨-, rfl⟩ | ⟨-, -, rfl⟩ := stepSwap_cases h <;> constructor <;> simp [hp, busy]
  case join => obtain ⟨-, rfl⟩ | ⟨-, rfl⟩ := stepJoin_cases h <;> constructor <;> simp [hp, busy]

/-- The pending events are no part of the frame. -/
theorem EngineFrame.of_events {es : List Event} (h : EngineFrame { s with events := es } t) : EngineFrame s t :=
  { h with cfg := h.cfg }

/-- R30 as a relation between a state and its successor: a register that differs was written by a rule of its row. The build parameters
stay (R9). -/
structure RowsOnly (s s' : State) : Prop where
  cfg : s'.cfg = s.cfg
  p : s'.p ≠ s.p → AcceptsByte s 0x01 ∧ s'.p = 0 ∨ EngineTurn s ∧ s.phase = .gDraw
  rk : s'.rk ≠ s.rk → AcceptsByte s 0x01 ∧ s'.rk = List.replicate s.cfg.rounds 0 ∨ EngineTurn s ∧ s.phase = .gKey
  keyvalid : s'.keyvalid ≠ s.keyvalid → AcceptsByte s 0x01 ∧ s'.keyvalid = false ∨
    EngineTurn s ∧ s.phase = .gKey ∧ s.rnd + 1 = s.cfg.rounds ∧ s'.keyvalid = true
  v : s'.v ≠ s.v → HostWrites s 0x03 ∨ EngineTurn s ∧ s.phase = .join
  l : s'.l ≠ s.l → HostWrites s 0x04 ∨ EngineTurn s ∧ (s.phase = .split ∨ s.phase = .acc ∨ s.phase = .swap)
  r : s'.r ≠ s.r → HostWrites s 0x05 ∨ EngineTurn s ∧ (s.phase = .split ∨ s.phase = .swap)
  f : s'.f ≠ s.f → EngineTurn s ∧ s.phase = .f
  t : s'.t ≠ s.t → EngineTurn s ∧ s.phase = .t
  rnd : s'.rnd ≠ s.rnd → HostWrites s 0x00 ∧ s'.rnd = 0 ∨ EngineTurn s ∧ (s.phase = .swap ∨ s.phase = .gKey)
  phase : s'.phase ≠ s.phase → HostWrites s 0x00 ∨ EngineTurn s ∧ busy s = true
  cmdr : s'.cmdr ≠ s.cmdr → AcceptsByte s s'.cmdr
  seed : s'.seed ≠ s.seed → HostWrites s 0x02 ∨ EngineTurn s ∧ (s.phase = .gDraw ∨ s.phase = .gKey)
  done : s'.done ≠ s.done → HostWrites s 0x00 ∧ s'.done = false ∨ EngineTurn s ∧ s'.done = true ∧ s'.phase = .idle
  err : s'.err ≠ s.err → s'.phase = .fault

theorem EngineFrame.rowsOnly (h : EngineFrame s t) (turn : EngineTurn s) : RowsOnly s t where
  cfg := h.cfg
  p hne := .inr ⟨turn, h.p.resolve_left hne⟩
  rk hne := .inr ⟨turn, h.rk.resolve_left hne⟩
  keyvalid hne := .inr ⟨turn, h.keyvalid.resolve_left hne⟩
  v hne := .inr ⟨turn, h.v.resolve_left hne⟩
  l hne := .inr ⟨turn, h.l.resolve_left hne⟩
  r hne := .inr ⟨turn, h.r.resolve_left hne⟩
  f hne := ⟨turn, h.f.resolve_left hne⟩
  t hne := ⟨turn, h.t.resolve_left hne⟩
  rnd hne := .inr ⟨turn, h.rnd.resolve_left hne⟩
  phase hne := .inr ⟨turn, h.phase.resolve_left hne⟩
  cmdr hne := absurd h.cmdr hne
  seed hne := .inr ⟨turn, h.seed.resolve_left hne⟩
  done hne := .inr ⟨turn, h.done.resolve_left hne⟩
  err hne := h.err.resolve_left hne

theorem rowsOnly_of_hardware_eq (h : hardware t = hardware s) : RowsOnly s t := by
  simp only [hardware, State.mk.injEq] at h
  obtain ⟨hcfg, hp, hrk, hkeyvalid, hv, hl, hr, hf, ht, hrnd, hphase, hcmdr, hseed, hdone, herr, -⟩ := h
  refine ⟨hcfg, ?_, ?_, ?_, ?_, ?_, ?_, ?_, ?_, ?_, ?_, ?_, ?_, ?_, ?_⟩ <;> intro hne <;> contradiction

/-- The accept writes CMDR and DONE always, RND and PHASE or ERR and PHASE, and for GENKEY the key (R191). -/
theorem writeCmd_rowsOnly {es : List Event} {v : Nat} (hi : s.phase = .idle) (he : s.events = .write 0x00 v :: es)
    (h : writeCmd (cmdByte v) { s with events := es } = .next t) : RowsOnly s t := by
  have host : HostWrites s 0x00#8 := ⟨hi, v, es, he⟩
  have accept : AcceptsByte s (cmdByte v) := ⟨hi, v, es, he, rfl⟩
  have hcases := writeCmd_cases (s := { s with events := es }) _ hi h
  rcases hcases with ⟨-, rfl⟩ | ⟨hb, rfl⟩ | ⟨-, -, rfl⟩ | ⟨-, -, rfl⟩ | ⟨-, -, rfl⟩
  case inr.inl =>
    have genkey : AcceptsByte s 0x01#8 := by rw [hb] at accept; exact accept
    constructor <;> simp [host, accept, genkey]
  all_goals constructor <;> simp [host, accept]

theorem hostWrite_rowsOnly {idx : Byte} {v : Nat} {es : List Event} (he : s.events = .write idx v :: es)
    (h : hostWrite idx v { s with events := es } = .next t) : RowsOnly s t := by
  rcases hostWrite_cases h with rfl | ⟨hi, hw⟩
  · exact rowsOnly_of_hardware_eq rfl
  have host : HostWrites s idx := ⟨hi, v, es, he⟩
  rcases hw with ⟨rfl, hcmd⟩ | ⟨rfl, rfl⟩ | ⟨rfl, rfl⟩ | ⟨rfl, rfl⟩ | ⟨rfl, rfl⟩
  · exact writeCmd_rowsOnly hi he hcmd
  all_goals
    simp only [BitVec.ofNat_eq_ofNat] at host
    constructor <;> simp [host]

/-- Polling changes the outside world's fields only. -/
@[simp] theorem hardware_hostWait (s : State) : hardware (hostWait s) = hardware s := by
  unfold hostWait
  split
  · rfl
  · rfl

theorem step_rowsOnly (hreset : s.events.head? ≠ some .reset) (h : step s = .next t) : RowsOnly s t := by
  obtain ⟨-, ⟨he, hs⟩ | ⟨e, es, he, hs⟩⟩ := step_cases h
  · exact (engineStep_frame hs).rowsOnly (.inl he)
  cases e with
  | read idx => cases hs; exact rowsOnly_of_hardware_eq rfl
  | write idx v => exact hostWrite_rowsOnly he hs
  | reset => simp [he] at hreset
  | engine =>
    have frame := engineStep_frame (s := { s with events := es }) hs
    exact frame.of_events.rowsOnly (.inr ⟨es, he⟩)
  | wait => cases hs; exact rowsOnly_of_hardware_eq (hardware_hostWait _)

/-- A reset leaves nothing of the hardware's state (R240). -/
theorem step_reset (hreset : s.events.head? = some .reset) (h : step s = .next t) : hardware t = State.resetOf s.cfg := by
  obtain ⟨es, he⟩ := List.head?_eq_some_iff.1 hreset
  rw [step_cons (step_cases h).1 he] at h
  cases h
  rfl

/-- Settles O9, by the event of the step: `step_reset` for a reset, `step_rowsOnly` for every other. -/
theorem registersAreWrittenByTheirRowsOnly : Obligations.RegistersAreWrittenByTheirRowsOnly := by
  intro s t h
  refine ⟨fun hreset => step_reset hreset h, fun hreset => ?_⟩
  have rows := step_rowsOnly hreset h
  exact ⟨rows.p, rows.rk, rows.keyvalid, rows.v, rows.l, rows.r, rows.f, rows.t, rows.rnd, rows.phase, rows.cmdr, rows.seed,
    rows.done, rows.err⟩

end Sys2Proof.Machine
end

section
/-! PROOFS. Every step keeps the invariant of the machine, so every reachable state has it, and with it the key invariant (R26). -/

namespace Sys2Proof.Machine

variable {s t : State}

/-! ## The invariant and the fields it speaks of -/

theorem GoodModulus.congr (h : GoodModulus s) (hc : t.cfg = s.cfg) (hp : t.p = s.p) : GoodModulus t where
  pos := by rw [hp]; exact h.pos
  odd := by rw [hp]; exact h.odd
  tested := by rw [hc, hp]; exact h.tested
  full := by rw [hc, hp]; exact h.full

theorem Invariant.key_congr (hs : Invariant s) (hc : t.cfg = s.cfg := by rfl) (hp : t.p = s.p := by rfl) (hrk : t.rk = s.rk := by rfl)
    (hk : t.keyvalid = s.keyvalid := by rfl) : t.keyvalid = true → GoodModulus t ∧ ∀ k ∈ t.rk, k < t.p := by
  rw [hk, hrk, hp]
  exact fun h => ⟨(hs.key h).1.congr hc hp, (hs.key h).2⟩

theorem Invariant.not_done (hs : Invariant s) (hb : s.phase ≠ .idle) : s.done = false :=
  Bool.eq_false_iff.2 fun hd => hb (hs.done hd).1

theorem Invariant.rounds_pos (hs : Invariant s) : 0 < s.cfg.rounds := hs.cfg.1.1

theorem Invariant.p_pos (hs : Invariant s) (hk : s.keyvalid = true) : 0 < s.p := (hs.key hk).1.pos

/-- The invariant does not see the outside world's fields. -/
theorem Invariant.withOutside (hs : Invariant s) (es : List Event) (rs : List Nat) (n : Nat) : Invariant (withOutside s es rs n) where
  cfg := hs.cfg
  fits := { hs.fits with p := hs.fits.p }
  errPhase := hs.errPhase
  errCode := hs.errCode
  done := hs.done
  key := hs.key_congr
  phase := by
    have hph : (Machine.withOutside s es rs n).phase = s.phase := rfl
    have h := hs.phase
    cases hp : s.phase <;> simp only [PhaseFacts, hph, hp] at h ⊢
    case gKey =>
      obtain ⟨gen, hrnd, good, hkeys⟩ := h
      exact ⟨gen, hrnd, good.congr rfl rfl, hkeys⟩
    all_goals exact h

theorem Invariant.of_hardware_eq (hs : Invariant s) (h : hardware t = hardware s) : Invariant t := by
  have ht : t = Machine.withOutside s t.events t.reads t.busyReads :=
    calc t = Machine.withOutside (hardware t) t.events t.reads t.busyReads := rfl
      _ = Machine.withOutside (hardware s) t.events t.reads t.busyReads := by rw [h]
  rw [ht]
  exact hs.withOutside _ _ _

theorem invariant_resetOf {c : Config} (hc : c.wf) : Invariant (State.resetOf c) where
  cfg := hc
  fits := by
    obtain ⟨-, -, -, -, hseed⟩ := hc
    constructor <;> simp [hseed]
  errPhase := by simp
  errCode := by simp
  done h := by simp at h
  key h := by simp at h
  phase _ := ⟨rfl, rfl⟩

/-! ## Ways to reach a state that has the invariant -/

/-- A fault entry writes ERR and PHASE only (R216). -/
theorem Invariant.raise (hs : Invariant s) (hd : s.done = false) (x : Cause) : Invariant (raise x s) where
  cfg := hs.cfg
  fits := { hs.fits with p := hs.fits.p }
  errPhase := iff_of_false (code_ne_zero x) (by simp)
  errCode := (code_range x).2
  done h := by simp [hd] at h
  key := hs.key_congr
  phase := trivial

/-- Into a busy phase: ERR stays 0, and what the phase asks for has to be shown. -/
theorem Invariant.toBusy (hs : Invariant s) (hf : s.phase ≠ .fault) (hd : t.done = false) (fits : Fits t)
    (key : t.keyvalid = true → GoodModulus t ∧ ∀ k ∈ t.rk, k < t.p) (phase : PhaseFacts t)
    (ht : t.phase ≠ .fault := by nofun) (hc : t.cfg = s.cfg := by rfl) (herr : t.err = s.err := by rfl) : Invariant t where
  cfg := hc ▸ hs.cfg
  fits := fits
  errPhase := by rw [herr, hs.errPhase]; exact iff_of_true hf ht
  errCode := herr ▸ hs.errCode
  done h := by simp [hd] at h
  key := key
  phase := phase

/-- Completion: IDLE with a key (R195). -/
theorem Invariant.toIdle (hs : Invariant s) (hf : s.phase ≠ .fault) (hk : t.keyvalid = true) (fits : Fits t)
    (key : t.keyvalid = true → GoodModulus t ∧ ∀ k ∈ t.rk, k < t.p)
    (ht : t.phase = .idle := by rfl) (hc : t.cfg = s.cfg := by rfl) (herr : t.err = s.err := by rfl) : Invariant t where
  cfg := hc ▸ hs.cfg
  fits := fits
  errPhase := by rw [herr, hs.errPhase, ht]; exact iff_of_true hf nofun
  errCode := herr ▸ hs.errCode
  done _ := ⟨ht, hk⟩
  key := key
  phase := by
    unfold PhaseFacts
    simp [ht, hk]

/-! ## The engine steps of GENKEY -/

/-- A forced candidate is odd and of W bits (R101). -/
theorem candidate_forced {c : Config} (x : Nat) (h : c.forceTopLow = true) :
    candidate c x % 2 = 1 ∧ 2 ^ (c.w - 1) ≤ candidate c x := by
  rw [candidate, if_pos h]
  exact ⟨Nat.or_mod_two_eq_one.2 (.inr rfl), Nat.right_le_or.trans Nat.left_le_or⟩

theorem seed_succ_lt (hs : Invariant s) (hm : s.seed ≠ 2 ^ s.cfg.seedBits - 1) : s.seed + 1 < 2 ^ s.cfg.seedBits := by
  have := hs.fits.seed
  omega

theorem stepGDraw_keeps_invariant (hs : Invariant s) (hp : s.phase = .gDraw) (h : stepGDraw s = .next t) : Invariant t := by
  have hd : s.done = false := hs.not_done (by simp [hp])
  obtain ⟨gen, hrnd⟩ : InGenkey s ∧ s.rnd = 0 := by simpa only [PhaseFacts, hp] using hs.phase
  obtain ⟨-, rfl⟩ | ⟨hm, rfl⟩ := stepGDraw_cases h
  · exact hs.raise hd _
  · have hc : candidate s.cfg (randBits (s.seed + 1) s.cfg.w) < 2 ^ s.cfg.w :=
      candidate_lt _ _ hs.cfg.2.1 (Nat.mod_lt _ (Nat.two_pow_pos _))
    exact hs.toBusy (by simp [hp]) hd { hs.fits with p := hc, seed := seed_succ_lt hs hm } (fun hk => by simp [gen.1] at hk)
      ⟨gen, hrnd, candidate_forced _⟩

theorem stepGTest_keeps_invariant (hs : Invariant s) (hp : s.phase = .gTest) (h : stepGTest s = .next t) : Invariant t := by
  have hd : s.done = false := hs.not_done (by simp [hp])
  obtain ⟨gen, hrnd, drawn⟩ : InGenkey s ∧ s.rnd = 0 ∧ DrawnCandidate s := by simpa only [PhaseFacts, hp] using hs.phase
  obtain ⟨htest, rfl⟩ | ⟨-, rfl⟩ := stepGTest_cases h
  · exact hs.toBusy (by simp [hp]) hd { hs.fits with p := hs.fits.p } hs.key_congr ⟨gen, hrnd, drawn, htest⟩
  · exact hs.toBusy (by simp [hp]) hd { hs.fits with p := hs.fits.p } hs.key_congr ⟨gen, hrnd⟩

/-- The check makes a tested candidate a good modulus; the tester's seed is the SEED of this moment (R122). -/
theorem stepGCheck_keeps_invariant (hs : Invariant s) (hp : s.phase = .gCheck) (h : stepGCheck s = .next t) : Invariant t := by
  have hd : s.done = false := hs.not_done (by simp [hp])
  obtain ⟨gen, hrnd, drawn, htest⟩ : InGenkey s ∧ s.rnd = 0 ∧ DrawnCandidate s ∧ primeTest s.p s.cfg.certainty s.seed = true := by
    simpa only [PhaseFacts, hp] using hs.phase
  obtain ⟨-, rfl⟩ | ⟨hne, hodd, rfl⟩ := stepGCheck_cases h
  · exact hs.raise hd _
  · have good : GoodModulus s := ⟨Nat.pos_of_ne_zero hne, hodd, ⟨_, hs.fits.seed, htest⟩, fun hf => (drawn hf).2⟩
    exact hs.toBusy (by simp [hp]) hd { hs.fits with p := hs.fits.p } hs.key_congr
      ⟨gen, hrnd ▸ hs.rounds_pos, good.congr rfl rfl, by simp [hrnd]⟩

/-- The first n + 1 elements of a list whose element n is replaced: the first n, and the new one. -/
theorem mem_take_succ_set {l : List Nat} {n a k : Nat} (hn : n < l.length) (h : k ∈ (l.set n a).take (n + 1)) :
    k ∈ l.take n ∨ k = a := by
  rw [List.take_succ_eq_append_getElem (by simpa using hn), List.take_set_of_le le_rfl, List.getElem_set_self] at h
  simpa using h

theorem stepGKey_keeps_invariant (hs : Invariant s) (hp : s.phase = .gKey) (h : stepGKey s = .next t) : Invariant t := by
  have hd : s.done = false := hs.not_done (by simp [hp])
  have hf : s.phase ≠ .fault := by simp [hp]
  obtain ⟨gen, hrnd, good, hkeys⟩ : InGenkey s ∧ s.rnd < s.cfg.rounds ∧ GoodModulus s ∧ ∀ k ∈ s.rk.take s.rnd, k < s.p := by
    simpa only [PhaseFacts, hp] using hs.phase
  obtain ⟨-, -, hcases⟩ := stepGKey_cases h
  have hlen := hs.fits.rkLength
  have hnew : randBelow (s.seed + 1) s.p < s.p := Nat.mod_lt _ good.pos
  have hrk : ∀ k ∈ s.rk.set s.rnd (randBelow (s.seed + 1) s.p), k < 2 ^ s.cfg.w := fun k hk =>
    (List.mem_or_eq_of_mem_set hk).elim (hs.fits.rk k) fun e => e ▸ hnew.trans hs.fits.p
  have hdrawn : ∀ k ∈ (s.rk.set s.rnd (randBelow (s.seed + 1) s.p)).take (s.rnd + 1), k < s.p := fun k hk =>
    (mem_take_succ_set (hlen ▸ hrnd) hk).elim (hkeys k) fun e => e ▸ hnew
  rcases hcases with ⟨-, rfl⟩ | ⟨hm, hlast, rfl⟩ | ⟨hm, hlt, rfl⟩
  · exact hs.raise hd _
  · rw [List.take_of_length_le (by simp [hlen, hlast])] at hdrawn
    exact hs.toIdle hf rfl
      { hs.fits with rkLength := by simpa using hlen, rk := hrk, rnd := hlast.le, seed := seed_succ_lt hs hm }
      fun _ => ⟨good.congr rfl rfl, hdrawn⟩
  · exact hs.toBusy hf hd
      { hs.fits with rkLength := by simpa using hlen, rk := hrk, rnd := hlt.le, seed := seed_succ_lt hs hm }
      (fun hk => by simp [gen.1] at hk) ⟨gen, hlt, good.congr rfl rfl, hdrawn⟩

/-! ## The engine steps of the other commands -/

theorem stepSplit_keeps_invariant (hs : Invariant s) (hp : s.phase = .split) (h : stepSplit s = .next t) : Invariant t := by
  have hd : s.done = false := hs.not_done (by simp [hp])
  have hf : s.phase ≠ .fault := by simp [hp]
  obtain ⟨hk, hcmdr, hrnd⟩ : s.keyvalid = true ∧ (s.cmdr = encode .enc ∨ s.cmdr = encode .dec ∨ s.cmdr = encode .split) ∧ s.rnd = 0 := by
    simpa only [PhaseFacts, hp] using hs.phase
  have hl : s.v / s.p < 2 ^ s.cfg.vw := (Nat.div_le_self _ _).trans_lt hs.fits.v
  have hr : s.v % s.p < s.p := Nat.mod_lt _ (hs.p_pos hk)
  obtain ⟨-, ⟨-, rfl⟩ | ⟨hop, rfl⟩⟩ := stepSplit_cases h
  · exact hs.toIdle hf hk { hs.fits with l := hl, r := hr.trans hs.fits.p } hs.key_congr
  · have hcmdr : s.cmdr = encode .enc ∨ s.cmdr = encode .dec := by
      rcases hcmdr with he | hd | hsplit
      · exact .inl he
      · exact .inr hd
      · exact absurd (by rw [opcode, hsplit]; rfl) hop
    exact hs.toBusy hf hd { hs.fits with l := hl, r := hr.trans hs.fits.p } hs.key_congr
      ⟨hk, hcmdr, hrnd ▸ hs.rounds_pos, hr, fun hpos => absurd hrnd hpos.ne'⟩

theorem stepF_keeps_invariant (hs : Invariant s) (hp : s.phase = .f) (h : stepF s = .next t) : Invariant t := by
  have hd : s.done = false := hs.not_done (by simp [hp])
  have hf : s.phase ≠ .fault := by simp [hp]
  have round : InRound s := by simpa only [PhaseFacts, hp] using hs.phase
  have hpos := hs.p_pos round.1
  obtain ⟨-, rfl⟩ | ⟨-, -, -, rfl⟩ | ⟨-, -, -, rfl⟩ := stepF_cases h
  · exact hs.toBusy hf hd { hs.fits with f := Nat.two_pow_pos _ } hs.key_congr ⟨round, hpos⟩
  · have hinv := modinv_lt s.r hpos
    exact hs.toBusy hf hd { hs.fits with f := hinv.trans hs.fits.p } hs.key_congr ⟨round, hinv⟩
  · exact hs.raise hd _

theorem stepT_keeps_invariant (hs : Invariant s) (hp : s.phase = .t) (h : stepT s = .next t) : Invariant t := by
  have hd : s.done = false := hs.not_done (by simp [hp])
  obtain ⟨round, -⟩ : InRound s ∧ s.f < s.p := by simpa only [PhaseFacts, hp] using hs.phase
  obtain ⟨-, d, k, -, -, rfl⟩ := stepT_cases h
  have hsum := modAdd_lt s.f k (hs.p_pos round.1)
  exact hs.toBusy (by simp [hp]) hd { hs.fits with t := hsum.trans hs.fits.p } hs.key_congr ⟨round, hsum⟩

/-- L has VW bits, so a residue modulo P fits it with room to spare. -/
theorem Invariant.p_lt_vw (hs : Invariant s) : s.p < 2 ^ s.cfg.vw :=
  hs.fits.p.trans_le (Nat.pow_le_pow_right Nat.two_pos (by have := hs.cfg.2.2.1; omega))

theorem stepAcc_keeps_invariant (hs : Invariant s) (hp : s.phase = .acc) (h : stepAcc s = .next t) : Invariant t := by
  have hd : s.done = false := hs.not_done (by simp [hp])
  obtain ⟨⟨hk, hcmdr, hrnd, hr, -⟩, -⟩ : InRound s ∧ s.t < s.p := by simpa only [PhaseFacts, hp] using hs.phase
  obtain ⟨-, d, -, rfl⟩ := stepAcc_cases h
  have hl := accumulate_lt d s.l s.t (hs.p_pos hk)
  exact hs.toBusy (by simp [hp]) hd { hs.fits with l := hl.trans hs.p_lt_vw } hs.key_congr ⟨⟨hk, hcmdr, hrnd, hr, fun _ => hl⟩, hl⟩

theorem stepSwap_keeps_invariant (hs : Invariant s) (hp : s.phase = .swap) (h : stepSwap s = .next t) : Invariant t := by
  have hd : s.done = false := hs.not_done (by simp [hp])
  have hf : s.phase ≠ .fault := by simp [hp]
  obtain ⟨⟨hk, hcmdr, -, hr, -⟩, hl⟩ : InRound s ∧ s.l < s.p := by simpa only [PhaseFacts, hp] using hs.phase
  obtain ⟨hlast, rfl⟩ | ⟨hlt, hw, rfl⟩ := stepSwap_cases h
  · exact hs.toBusy hf hd { hs.fits with rnd := hlast.le } hs.key_congr ⟨hk, .inl ⟨hcmdr, hlast, hl, hr⟩⟩
  · exact hs.toBusy hf hd { hs.fits with l := hr.trans hs.p_lt_vw, r := hw, rnd := hlt.le } hs.key_congr
      ⟨hk, hcmdr, hlt, hl, fun _ => hr⟩

theorem stepJoin_keeps_invariant (hs : Invariant s) (hp : s.phase = .join) (h : stepJoin s = .next t) : Invariant t := by
  have hk : s.keyvalid = true := by
    have hphase := hs.phase
    simp only [PhaseFacts, hp] at hphase
    exact hphase.1
  obtain ⟨-, rfl⟩ | ⟨hv, rfl⟩ := stepJoin_cases h
  · exact hs.raise (hs.not_done (by simp [hp])) _
  · exact hs.toIdle (by simp [hp]) hk { hs.fits with v := hv } hs.key_congr

theorem engineStep_keeps_invariant (hs : Invariant s) (h : engineStep s = .next t) : Invariant t := by
  unfold engineStep at h
  cases hp : s.phase <;> simp only [hp] at h
  case idle => cases h; exact hs
  case fault => cases h; exact hs
  case gDraw => exact stepGDraw_keeps_invariant hs hp h
  case gTest => exact stepGTest_keeps_invariant hs hp h
  case gCheck => exact stepGCheck_keeps_invariant hs hp h
  case gKey => exact stepGKey_keeps_invariant hs hp h
  case split => exact stepSplit_keeps_invariant hs hp h
  case f => exact stepF_keeps_invariant hs hp h
  case t => exact stepT_keeps_invariant hs hp h
  case acc => exact stepAcc_keeps_invariant hs hp h
  case swap => exact stepSwap_keeps_invariant hs hp h
  case join => exact stepJoin_keeps_invariant hs hp h

/-! ## The host's writes -/

/-- In IDLE nothing depends on CMDR, so the accept's first writes keep the invariant. -/
theorem Invariant.noteCommand (hs : Invariant s) (hi : s.phase = .idle) (b : Byte) : Invariant (noteCommand b s) where
  cfg := hs.cfg
  fits := { hs.fits with p := hs.fits.p }
  errPhase := hs.errPhase
  errCode := hs.errCode
  done h := by simp at h
  key := hs.key_congr
  phase := by simpa [PhaseFacts, hi] using hs.phase

theorem writeCmd_keeps_invariant {b : Byte} (hs : Invariant s) (hi : s.phase = .idle) (h : writeCmd b s = .next t) : Invariant t := by
  have hn := hs.noteCommand hi b
  have hf : s.phase ≠ .fault := by simp [hi]
  rcases writeCmd_cases b hi h with ⟨-, rfl⟩ | ⟨hb, rfl⟩ | ⟨hb, hk, rfl⟩ | ⟨hb, hk, rfl⟩ | ⟨-, -, rfl⟩
  · exact hn.raise rfl _
  · exact hn.toBusy hf rfl
      { hs.fits with
        p := Nat.two_pow_pos _
        rkLength := List.length_replicate
        rk := fun k hk => List.eq_of_mem_replicate hk ▸ Nat.two_pow_pos _
        rnd := Nat.zero_le _ }
      (fun hk => by simp at hk) ⟨⟨rfl, hb⟩, rfl⟩
  · exact hn.toBusy hf rfl { hs.fits with rnd := Nat.zero_le _ } hn.key_congr ⟨hk, hb, rfl⟩
  · exact hn.toBusy hf rfl { hs.fits with rnd := Nat.zero_le _ } hn.key_congr ⟨hk, .inr ⟨hb, rfl⟩⟩
  · exact hn.raise rfl _

/-- In IDLE the invariant asks of SEED, V, L and R only that they fit. -/
theorem Invariant.writeOperands (hs : Invariant s) (hi : s.phase = .idle) {seed v l r : Nat} (hseed : seed < 2 ^ s.cfg.seedBits)
    (hv : v < 2 ^ s.cfg.vw) (hl : l < 2 ^ s.cfg.vw) (hr : r < 2 ^ s.cfg.w) : Invariant { s with seed := seed, v := v, l := l, r := r } where
  cfg := hs.cfg
  fits := { hs.fits with seed := hseed, v := hv, l := hl, r := hr }
  errPhase := hs.errPhase
  errCode := hs.errCode
  done := hs.done
  key := hs.key_congr
  phase := by simpa [PhaseFacts, hi] using hs.phase

theorem hostWrite_keeps_invariant {idx : Byte} {v : Nat} (hs : Invariant s) (h : hostWrite idx v s = .next t) : Invariant t := by
  obtain ⟨-, -, -, hv, hl, hr, -, -, -, hseed⟩ := hs.fits
  rcases hostWrite_cases h with rfl | ⟨hi, ⟨-, hcmd⟩ | ⟨-, rfl⟩ | ⟨-, rfl⟩ | ⟨-, rfl⟩ | ⟨-, rfl⟩⟩
  · exact hs
  · exact writeCmd_keeps_invariant hs hi hcmd
  · exact hs.writeOperands hi (trunc_lt _ v) hv hl hr
  · exact hs.writeOperands hi hseed (trunc_lt _ v) hl hr
  · exact hs.writeOperands hi hseed hv (trunc_lt _ v) hr
  · exact hs.writeOperands hi hseed hv hl (trunc_lt _ v)

/-! ## Steps and runs -/

theorem runEvent_keeps_invariant {e : Event} (hs : Invariant s) (h : runEvent e s = .next t) : Invariant t := by
  cases e with
  | read idx => cases h; exact hs.of_hardware_eq rfl
  | write idx v => exact hostWrite_keeps_invariant hs h
  | reset => cases h; exact (invariant_resetOf hs.cfg).of_hardware_eq rfl
  | engine => exact engineStep_keeps_invariant hs h
  | wait => cases h; exact hs.of_hardware_eq (hardware_hostWait s)

theorem step_keeps_invariant (hs : Invariant s) (h : step s = .next t) : Invariant t := by
  obtain ⟨-, ⟨-, he⟩ | ⟨e, es, -, he⟩⟩ := step_cases h
  · exact engineStep_keeps_invariant hs he
  · exact runEvent_keeps_invariant (hs.of_hardware_eq (t := { s with events := es }) rfl) he

theorem step_cfg (h : step s = .next t) : t.cfg = s.cfg := by
  by_cases hreset : s.events.head? = some .reset
  · rw [← hardware_cfg t, step_reset hreset h, resetOf_cfg]
  · exact (step_rowsOnly hreset h).cfg

theorem Reachable.invariant {c : Config} (h : Reachable c s) : Invariant s := by
  induction h with
  | reset es hc => exact (invariant_resetOf hc).of_hardware_eq rfl
  | step _ hstep ih => exact step_keeps_invariant ih hstep

theorem Reachable.cfg {c : Config} (h : Reachable c s) : s.cfg = c := by
  induction h with
  | reset es hc => rfl
  | step _ hstep ih => rw [step_cfg hstep, ih]

/-- Settles O7: the key invariant is a part of the invariant of the machine. -/
theorem keyInvariantOfReachableStates : Obligations.KeyInvariantOfReachableStates := by
  intro c s h hk
  obtain rfl := h.cfg
  have hs := h.invariant
  obtain ⟨good, hkeys⟩ := hs.key hk
  refine ⟨good.pos, good.odd, hs.fits.p, good.tested, hs.fits.rkLength, fun i hi => ?_, good.full⟩
  rw [List.getD_eq_getElem _ _ (hs.fits.rkLength.symm ▸ hi)]
  exact hkeys _ (List.getElem_mem _)

end Sys2Proof.Machine
end

section
/-! PROOFS. Host access (20_memory.md): what a read gives (R42, R45, R49) and what a write does (R43), by index and phase. -/

namespace Sys2Proof.Machine

variable {s : State} {c : Config} {idx : Byte} {x : Reg}

/-! ## The index map (R63) -/

theorem eq_indexOf_rk {i : Nat} (h : idx.toNat = 0x80 + i) : idx = indexOf (.rk i) := by
  rw [indexOf, ← h, BitVec.ofNat_toNat, BitVec.setWidth_eq]

/-- The converse of `regOf_indexOf`: an index names a register of the map only if it is that register's index. -/
theorem eq_indexOf_of_regOf (h : regOf c idx = some x) : idx = indexOf x ∧ regNamed c x = true := by
  have hcases := regOf_cases c idx
  simp only [h, Option.some.injEq, reduceCtorEq, and_false, or_false] at hcases
  rcases hcases with ⟨rfl, rfl⟩ | ⟨rfl, rfl⟩ | ⟨rfl, rfl⟩ | ⟨rfl, rfl⟩ | ⟨rfl, rfl⟩ | ⟨rfl, rfl⟩ | ⟨rfl, rfl⟩ | ⟨rfl, rfl⟩ | ⟨rfl, rfl⟩ |
    ⟨rfl, rfl⟩ | ⟨-, i, hidx, hi, rfl⟩
  any_goals exact ⟨rfl, rfl⟩
  exact ⟨eq_indexOf_rk hidx, decide_eq_true hi⟩

theorem regOf_rk {i : Nat} (hc : c.wf) (hi : i < c.rounds) (h : idx.toNat = 0x80 + i) : regOf c idx = some (.rk i) := by
  rw [eq_indexOf_rk h]
  exact regOf_indexOf hc (decide_eq_true hi)

/-- The reserved indices: those from 0x0A that are no round key's (R49). -/
theorem regOf_reserved (hlow : 0x0A ≤ idx.toNat) (hrk : idx.toNat < 0x80 ∨ 0x80 + c.rounds ≤ idx.toNat) : regOf c idx = none := by
  rcases regOf_cases c idx with ⟨rfl, -⟩ | ⟨rfl, -⟩ | ⟨rfl, -⟩ | ⟨rfl, -⟩ | ⟨rfl, -⟩ | ⟨rfl, -⟩ | ⟨rfl, -⟩ | ⟨rfl, -⟩ | ⟨rfl, -⟩ |
    ⟨rfl, -⟩ | ⟨-, i, hidx, hi, -⟩ | ⟨-, -, hnone⟩
  any_goals contradiction
  · omega
  · exact hnone

/-! ## Reads -/

theorem indexValue_named (h : regOf s.cfg idx = some x) : indexValue s idx = regValue s x := by rw [indexValue, h]

theorem indexValue_reserved (h : regOf s.cfg idx = none) : indexValue s idx = 0 := by rw [indexValue, h]

theorem busyValue_lt (h : regOf s.cfg idx = some x) : busyValue s idx < 2 ^ regWidth s.cfg x := by
  rw [busyValue, h]
  exact Nat.mod_lt _ (Nat.two_pow_pos _)

theorem hostRead_not_busy (hb : busy s = false) (hidx : idx ≠ indexOf .status) :
    hostRead idx s = { s with reads := indexValue s idx :: s.reads } := by
  simp [hostRead, readValue, readIsFree, hb, hidx]

theorem hostRead_busy (hb : busy s = true) (hidx : idx ≠ indexOf .status) :
    hostRead idx s = { s with reads := busyValue s idx :: s.reads, busyReads := s.busyReads + 1 } := by
  simp [hostRead, readValue, readIsFree, hb, hidx]

theorem bitlen_le_iff {v n : Nat} : bitlen v ≤ n ↔ v < 2 ^ n := by
  unfold bitlen
  split
  · next h => simp [h]
  · next h => exact Nat.log2_lt h

/-- Settles O15: the read by phase (`hostRead_not_busy`, `hostRead_busy`), its value by what the index names. -/
theorem hostReadGivesTheIndexedRegister : Obligations.HostReadGivesTheIndexedRegister := by
  intro s idx es hc he
  rw [step_cons hc he]
  refine ⟨?_, fun hb hidx => ?_, fun hb hidx => ?_⟩
  · rintro rfl
    exact congrArg Host.Outcome.next (hostRead_status _)
  · refine ⟨_, congrArg Host.Outcome.next (hostRead_not_busy hb hidx), ?_, ?_, ?_, ?_, ?_, ?_, ?_, ?_, ?_,
      fun i hi h => indexValue_named (regOf_rk hc hi h),
      fun hlow hhigh => indexValue_reserved (regOf_reserved hlow (.inl hhigh)),
      fun hhigh => indexValue_reserved (regOf_reserved (by omega) (.inr hhigh))⟩
    all_goals rintro rfl; rfl
  · refine ⟨_, busyValue { s with events := es } idx, congrArg Host.Outcome.next (hostRead_busy hb hidx), rfl, rfl, rfl,
      ?_, ?_, ?_, fun h5 h8 => ?_, ?_, fun i hi h => busyValue_lt (regOf_rk hc hi h)⟩
    · rintro rfl; exact busyValue_lt (x := .cmd) rfl
    · rintro rfl; exact busyValue_lt (x := .seed) rfl
    · rintro (rfl | rfl)
      · exact busyValue_lt (x := .v) rfl
      · exact busyValue_lt (x := .l) rfl
    · have hres : idx = 0x05 ∨ idx = 0x06 ∨ idx = 0x07 ∨ idx = 0x08 := by bv_omega
      rcases hres with rfl | rfl | rfl | rfl
      · exact busyValue_lt (x := .r) rfl
      · exact busyValue_lt (x := .p) rfl
      · exact busyValue_lt (x := .f) rfl
      · exact busyValue_lt (x := .t) rfl
    · rintro rfl n hn
      exact (busyValue_lt (x := .rnd) rfl).trans_le (Nat.pow_le_pow_right Nat.two_pos (bitlen_le_iff.2 hn))

/-! ## Writes -/

theorem hostWrite_not_idle (v : Nat) (hp : s.phase ≠ .idle) : hostWrite idx v s = .next s := if_neg hp

theorem hostWrite_cmd (v : Nat) (hp : s.phase = .idle) : hostWrite (indexOf .cmd) v s = writeCmd (cmdByte v) s := if_pos hp

theorem hostWrite_named (v : Nat) (hp : s.phase = .idle) (h : regOf s.cfg idx = some x) (hx : x ≠ .cmd) :
    hostWrite idx v s = .next (writeOperand s x v) := by
  rw [hostWrite, if_pos hp, h]
  cases x
  case cmd => exact absurd rfl hx
  all_goals rfl

theorem hostWrite_reserved (v : Nat) (h : regOf s.cfg idx = none) : hostWrite idx v s = .next s := by
  rw [hostWrite, h]
  exact ite_self _

/-- Only indices 0x00 and 0x02 to 0x05 name registers that the host can write (R43). -/
theorem hostWrite_readOnly (v : Nat) (hp : s.phase = .idle) (hidx : idx = 0x01 ∨ 6 ≤ idx.toNat) : hostWrite idx v s = .next s := by
  cases h : regOf s.cfg idx with
  | none => exact hostWrite_reserved v h
  | some x =>
    obtain ⟨rfl, -⟩ := eq_indexOf_of_regOf h
    cases x
    case cmd | seed | v | l | r => exact absurd hidx (by decide)
    all_goals exact hostWrite_named v hp h nofun

/-- Settles O16, by the phase and then by the register that the index names. -/
theorem hostWriteActsByIndexAndPhase : Obligations.HostWriteActsByIndexAndPhase := by
  intro s idx v es hc he
  rw [step_cons hc he]
  refine ⟨fun hp => hostWrite_not_idle v hp, fun hp => ⟨?_, ?_, ?_, ?_, ?_, fun hidx => hostWrite_readOnly v hp hidx⟩⟩
  · rintro rfl; exact hostWrite_cmd v hp
  · rintro rfl; exact hostWrite_named (idx := 0x02) (x := .seed) v hp rfl nofun
  · rintro rfl; exact hostWrite_named (idx := 0x03) (x := .v) v hp rfl nofun
  · rintro rfl; exact hostWrite_named (idx := 0x04) (x := .l) v hp rfl nofun
  · rintro rfl; exact hostWrite_named (idx := 0x05) (x := .r) v hp rfl nofun

end Sys2Proof.Machine
end

section
/-! PROOFS. The opcode map (30_encoding.md): which bytes are commands (R62), and what an illegal byte written to CMD does (R191, R214). -/

namespace Sys2Proof.Machine

variable {s : State} {b : Byte} {i : Instr}

/-! ## The decoder (R62) -/

@[simp] theorem decode_encode (i : Instr) : decode (encode i) = .ok i := by
  cases i <;> rfl

theorem decode_eq_ok_iff : decode b = .ok i ↔ b = encode i where
  mp := encode_of_decode
  mpr h := h ▸ decode_encode i

theorem encode_toNat_mem_Icc (i : Instr) : (encode i).toNat ∈ Set.Icc 1 5 := by
  cases i <;> exact ⟨by decide, by decide⟩

/-- The 251 illegal bytes of R62 are rejected, since a byte that decodes is one of the five encodings. -/
theorem decode_illegal (hb : b.toNat = 0 ∨ 6 ≤ b.toNat) : ∃ e, decode b = .error e := by
  cases h : decode b with
  | error e => exact ⟨e, rfl⟩
  | ok i =>
    obtain ⟨hlow, hhigh⟩ := encode_toNat_mem_Icc i
    rw [decode_eq_ok_iff.1 h] at hb
    omega

/-! ## An illegal byte written to CMD -/

theorem cmdByte_eq_of_mod {v : Nat} (h : v % 256 = b.toNat) : cmdByte v = b :=
  BitVec.eq_of_toNat_eq ((BitVec.toNat_ofNat v 8).trans h)

theorem writeCmd_illegal {e : DecodeError} (hp : s.phase = .idle) (hd : decode b = .error e) :
    writeCmd b s = .next (raise .illegalCommand (noteCommand b s)) := by
  simp [writeCmd, hd, acceptIllegal, hp]

/-- Settles O11: the five bytes by `decode_eq_ok_iff`, the others by `decode_illegal`, their write to CMD by `writeCmd_illegal`. -/
theorem opcodeMapIsComplete : Obligations.OpcodeMapIsComplete := by
  refine ⟨fun b => ⟨decode_eq_ok_iff, decode_eq_ok_iff, decode_eq_ok_iff, decode_eq_ok_iff, decode_eq_ok_iff⟩, fun b hb => ?_⟩
  obtain ⟨e, hd⟩ := decode_illegal hb
  refine ⟨⟨e, hd⟩, fun s v es hc hp he hv => ?_⟩
  calc step s = hostWrite (indexOf .cmd) v { s with events := es } := step_cons hc he
    _ = writeCmd (cmdByte v) { s with events := es } := hostWrite_cmd v hp
    _ = writeCmd b { s with events := es } := by rw [cmdByte_eq_of_mod hv]
    _ = .next (raise .illegalCommand (noteCommand b { s with events := es })) := writeCmd_illegal hp hd

end Sys2Proof.Machine
end

section
/-! PROOFS. The integer arithmetic of 40_collaborators.md: modular addition and subtraction (R82), the modular inverse (R83). -/

namespace Sys2Proof.Machine

variable {a b p x : Nat}

/-! ## Modular subtraction (R82) -/

/-- The difference is a residue r with r + b ≡ a. -/
theorem modSub_add_modEq (a b : Nat) (hp : 0 < p) : modSub a b p + b ≡ a [MOD p] := by
  have hb : b % p ≤ a % p + p := (Nat.mod_lt b hp).le.trans (Nat.le_add_left p _)
  calc modSub a b p + b
    _ ≡ (a % p + p - b % p) + b % p [MOD p] := (Nat.mod_modEq _ p).add (Nat.mod_modEq b p).symm
    _ = a % p + p := Nat.sub_add_cancel hb
    _ ≡ a % p [MOD p] := Nat.add_modEq_right
    _ ≡ a [MOD p] := Nat.mod_modEq a p

/-- The difference is the only such residue: its values at the corner cases follow from their sums with b. -/
theorem modSub_eq_of_add_modEq (hx : x < p) (h : x + b ≡ a [MOD p]) : modSub a b p = x := by
  have hp : 0 < p := Nat.zero_lt_of_lt hx
  have hmod : modSub a b p ≡ x [MOD p] := ((modSub_add_modEq a b hp).trans h.symm).add_right_cancel'
  exact hmod.eq_of_lt_of_lt (modSub_lt a b hp) hx

theorem modSub_of_lt (hab : a < b) (hb : b < p) : modSub a b p = a + p - b := by
  apply modSub_eq_of_add_modEq (by omega)
  rw [Nat.sub_add_cancel (by omega)]
  exact Nat.add_modEq_right

theorem modSub_of_le (hba : b ≤ a) (ha : a < p) : modSub a b p = a - b := by
  apply modSub_eq_of_add_modEq (by omega)
  rw [Nat.sub_add_cancel hba]

theorem modSub_self (a : Nat) (hp : 0 < p) : modSub a a p = 0 :=
  modSub_eq_of_add_modEq hp (by rw [Nat.zero_add])

theorem modSub_zero_right (a : Nat) (hp : 0 < p) : modSub a 0 p = a % p :=
  modSub_eq_of_add_modEq (Nat.mod_lt a hp) (Nat.mod_modEq a p)

/-- Settles O19: the property by `modSub_add_modEq`, uniqueness and the corner cases by `modSub_eq_of_add_modEq`. -/
theorem modularSumAndDifferenceAreResidues : Obligations.ModularSumAndDifferenceAreResidues := by
  intro a b p hp
  exact ⟨rfl, modSub_lt a b hp, modSub_add_modEq a b hp, fun x hx h => (modSub_eq_of_add_modEq hx h).symm,
    modSub_of_lt, modSub_of_le, modSub_self a hp, modSub_zero_right a hp⟩

/-! ## The Euclidean loop -/

theorem euclid_of_eq_zero (fuel p r0 t0 t1 : Nat) : euclid (fuel + 1) p r0 0 t0 t1 = t0 := rfl

theorem euclid_of_ne_zero (fuel p r0 t0 t1 : Nat) {r1 : Nat} (h : r1 ≠ 0) :
    euclid (fuel + 1) p r0 r1 t0 t1 = euclid fuel p r1 (r0 % r1) t1 (modSub t0 (r0 / r1 * t1) p) :=
  if_neg h

/-- One turn of the loop keeps its congruence: the new cofactor times a is the new remainder. -/
theorem modSub_mul_modEq_mod {r0 r1 t0 t1 : Nat} (hp : 0 < p) (h0 : t0 * a ≡ r0 [MOD p]) (h1 : t1 * a ≡ r1 [MOD p]) :
    modSub t0 (r0 / r1 * t1) p * a ≡ r0 % r1 [MOD p] := by
  have hq : r0 / r1 * t1 * a ≡ r1 * (r0 / r1) [MOD p] := by
    rw [Nat.mul_assoc, Nat.mul_comm r1]
    exact h1.mul_left _
  refine hq.add_right_cancel ?_
  calc modSub t0 (r0 / r1 * t1) p * a + r0 / r1 * t1 * a
    _ = (modSub t0 (r0 / r1 * t1) p + r0 / r1 * t1) * a := (Nat.add_mul _ _ _).symm
    _ ≡ t0 * a [MOD p] := (modSub_add_modEq _ _ hp).mul_right a
    _ ≡ r0 [MOD p] := h0
    _ = r0 % r1 + r1 * (r0 / r1) := (Nat.mod_add_div r0 r1).symm

/-- With fuel above the smaller remainder, the loop answers a cofactor of the greatest common divisor. -/
theorem euclid_mul_modEq_gcd (hp : 0 < p) {fuel r0 r1 t0 t1 : Nat} (hfuel : r1 < fuel)
    (h0 : t0 * a ≡ r0 [MOD p]) (h1 : t1 * a ≡ r1 [MOD p]) : euclid fuel p r0 r1 t0 t1 * a ≡ Nat.gcd r0 r1 [MOD p] := by
  induction fuel generalizing r0 r1 t0 t1 with
  | zero => exact absurd hfuel (Nat.not_lt_zero r1)
  | succ fuel ih =>
    by_cases hr : r1 = 0
    · subst hr
      rwa [euclid_of_eq_zero, Nat.gcd_zero_right]
    · have hmod : r0 % r1 < r1 := Nat.mod_lt r0 (Nat.pos_of_ne_zero hr)
      rw [euclid_of_ne_zero _ _ _ _ _ hr, Nat.gcd_comm, Nat.gcd_rec, Nat.gcd_comm]
      exact ih (by omega) h1 (modSub_mul_modEq_mod hp h0 h1)

/-! ## The modular inverse (R83) -/

/-- The product with the inverse is the greatest common divisor, also where a is not invertible. -/
theorem mul_modinv_modEq_gcd (a : Nat) (hp : 0 < p) : a * modinv a p ≡ Nat.gcd a p [MOD p] := by
  have h0 : 0 * a ≡ p [MOD p] := by simp [Nat.ModEq]
  have h1 : 1 * a ≡ a % p [MOD p] := by simp [Nat.ModEq]
  have hfuel : a % p < p + 1 := Nat.lt_succ_of_lt (Nat.mod_lt a hp)
  calc a * modinv a p
    _ ≡ a * euclid (p + 1) p p (a % p) 0 1 [MOD p] := (Nat.mod_modEq _ p).mul_left a
    _ = euclid (p + 1) p p (a % p) 0 1 * a := Nat.mul_comm _ _
    _ ≡ Nat.gcd p (a % p) [MOD p] := euclid_mul_modEq_gcd hp hfuel h0 h1
    _ = Nat.gcd a p := by rw [Nat.gcd_comm, ← Nat.gcd_rec, Nat.gcd_comm]

theorem mul_modinv_modEq_one (hp : 0 < p) (h : Nat.gcd a p = 1) : a * modinv a p ≡ 1 [MOD p] :=
  h ▸ mul_modinv_modEq_gcd a hp

/-- The inverse is the only residue that is one (which makes a coprime to p). -/
theorem modinv_eq_of_mul_modEq_one (hx : x < p) (h : a * x ≡ 1 [MOD p]) : modinv a p = x := by
  have hp : 0 < p := Nat.zero_lt_of_lt hx
  have hcop : Nat.gcd a p = 1 := Nat.coprime_of_mul_modEq_one x h
  have hmul : a * modinv a p ≡ a * x [MOD p] := (mul_modinv_modEq_one hp hcop).trans h.symm
  exact (hmul.cancel_left_of_coprime ((Nat.gcd_comm p a).trans hcop)).eq_of_lt_of_lt (modinv_lt a hp) hx

theorem modinv_mod (a p : Nat) : modinv (a % p) p = modinv a p := by
  rw [modinv, modinv, Nat.mod_mod]

theorem modinv_ne_zero (hp : 1 < p) (h : Nat.gcd a p = 1) : modinv a p ≠ 0 := by
  intro hzero
  have hone : 0 ≡ 1 [MOD p] := by simpa [hzero] using mul_modinv_modEq_one (Nat.zero_lt_of_lt hp) h
  exact absurd (hone.eq_of_lt_of_lt (Nat.zero_lt_of_lt hp) hp) Nat.zero_ne_one

theorem modinv_modinv (hp : 0 < p) (h : Nat.gcd a p = 1) : modinv (modinv a p) p = a % p := by
  apply modinv_eq_of_mul_modEq_one (Nat.mod_lt a hp)
  calc modinv a p * (a % p)
    _ ≡ modinv a p * a [MOD p] := (Nat.mod_modEq a p).mul_left _
    _ = a * modinv a p := Nat.mul_comm _ _
    _ ≡ 1 [MOD p] := mul_modinv_modEq_one hp h

theorem modinv_one_left (hp : 0 < p) : modinv 1 p = 1 % p :=
  modinv_eq_of_mul_modEq_one (Nat.mod_lt 1 hp) (by rw [Nat.one_mul]; exact Nat.mod_modEq 1 p)

/-- p - 1 is its own inverse, since (p - 1)^2 = (p - 2) * p + 1. -/
theorem modinv_pred (hp : 1 < p) : modinv (p - 1) p = p - 1 := by
  apply modinv_eq_of_mul_modEq_one (by omega)
  obtain ⟨k, rfl⟩ := Nat.exists_eq_add_of_le' hp
  have hsq : (k + 1) * (k + 1) = k * (k + 2) + 1 := by ring
  calc (k + 1) * (k + 1)
    _ = k * (k + 2) + 1 := hsq
    _ ≡ 1 [MOD k + 2] := by simp [Nat.ModEq]

theorem modinv_one_right (a : Nat) : modinv a 1 = 0 :=
  Nat.lt_one_iff.1 (modinv_lt a Nat.one_pos)

/-- Settles O20: the property by the invariant of the Euclidean loop, every value by uniqueness. -/
theorem modularInverseIsTheUniqueInverse : Obligations.ModularInverseIsTheUniqueInverse := by
  intro a p hp h
  exact ⟨modinv_lt a hp, mul_modinv_modEq_one hp h, fun x hx hmul => (modinv_eq_of_mul_modEq_one hx hmul).symm,
    (modinv_mod a p).symm, fun hone => ⟨modinv_ne_zero hone h, modinv_modinv hp h⟩,
    modinv_one_left hp, modinv_pred, modinv_one_right a⟩

end Sys2Proof.Machine
end

section
/-! PROOFS. The prime generator (41_prime_generator.md): the candidate and step G_DRAW (R101), step G_TEST (R102). -/

namespace Sys2Proof.Machine

variable {s : State} {c : Config}

/-! ## The candidate (R101) -/

theorem randBits_lt (seed n : Nat) : randBits seed n < 2 ^ n := Nat.mod_lt _ (Nat.two_pow_pos n)

theorem candidate_unforced (x : Nat) (h : c.forceTopLow = false) : candidate c x = x := by
  simp [candidate, h]

theorem testBit_candidate_forced (x i : Nat) (h : c.forceTopLow = true) :
    (candidate c x).testBit i = true ↔ i = 0 ∨ i = c.w - 1 ∨ x.testBit i = true := by
  have hcand : candidate c x = x ||| 2 ^ (c.w - 1) ||| 2 ^ 0 := if_pos h
  rw [hcand]
  simp only [Nat.testBit_or, Nat.testBit_two_pow, Bool.or_eq_true, decide_eq_true_eq]
  tauto

/-- The forced top bit alone is 2^(W-1), which is even for W ≥ 2: the forced low bit adds at least 1. -/
theorem candidate_forced_lower_bound (x : Nat) (hw : 2 ≤ c.w) (h : c.forceTopLow = true) :
    2 ^ (c.w - 1) + 1 ≤ candidate c x := by
  obtain ⟨hodd, htop⟩ := candidate_forced x h
  have heven : 2 ^ (c.w - 1) % 2 = 0 := Nat.two_pow_mod_two_eq_zero.2 (by omega)
  omega

/-! ## Step G_DRAW (R101) -/

theorem engineStep_gDraw (hp : s.phase = .gDraw) : engineStep s = stepGDraw s := by
  rw [engineStep, hp]

theorem stepGDraw_at_max (hm : s.seed = 2 ^ s.cfg.seedBits - 1) : stepGDraw s = .next (raise .seedOverflow s) := by
  rw [stepGDraw, draw_at_max _ _ hm]

theorem stepGDraw_below_max (hm : s.seed ≠ 2 ^ s.cfg.seedBits - 1) :
    stepGDraw s = .next { s with seed := s.seed + 1, p := candidate s.cfg (randBits (s.seed + 1) s.cfg.w), phase := .gTest } := by
  rw [stepGDraw, draw_below_max _ _ hm]

/-- Settles O22: the next states by the two cases of the draw, the candidate by its own lemmas. -/
theorem stepGDrawDrawsACandidate : Obligations.StepGDrawDrawsACandidate := by
  intro s hc hp
  have hw : 2 ≤ s.cfg.w := hc.2.1
  rw [engineStep_gDraw hp]
  refine ⟨stepGDraw_at_max, fun hm => ⟨_, stepGDraw_below_max hm, candidate_lt _ _ hw (randBits_lt _ _), candidate_unforced _, fun hf => ?_⟩⟩
  exact ⟨(candidate_forced _ hf).1, candidate_forced_lower_bound _ hw hf, fun i => testBit_candidate_forced _ i hf⟩

/-! ## Step G_TEST (R102) -/

/-- Nothing is known of the tester but that it accepts every prime (R90). -/
theorem primeTest_eq_true_iff {p certainty seed : Nat} :
    primeTest p certainty seed = true ↔ Config.primeTestRaw p certainty seed = true ∨ Nat.Prime p := by
  rw [primeTest, Bool.or_eq_true, decide_eq_true_iff]

theorem engineStep_gTest (hp : s.phase = .gTest) :
    engineStep s = .next { s with phase := if primeTest s.p s.cfg.certainty s.seed then .gCheck else .gDraw } := by
  rw [engineStep, hp, stepGTest]

theorem engineStep_gTest_accepted (hp : s.phase = .gTest) (h : primeTest s.p s.cfg.certainty s.seed = true) :
    engineStep s = .next { s with phase := .gCheck } := by
  rw [engineStep_gTest hp, if_pos h]

theorem engineStep_gTest_rejected (hp : s.phase = .gTest) (h : primeTest s.p s.cfg.certainty s.seed = false) :
    engineStep s = .next { s with phase := .gDraw } := by
  rw [engineStep_gTest hp, if_neg (Bool.eq_false_iff.1 h)]

/-- Settles O23: the step by the tester's answer, which is yes on a prime. -/
theorem stepGTestMovesThePhaseOnly : Obligations.StepGTestMovesThePhaseOnly := by
  intro s hp
  exact ⟨engineStep_gTest_accepted hp, engineStep_gTest_rejected hp,
    fun hprime => engineStep_gTest_accepted hp (primeTest_eq_true_iff.2 (.inr hprime))⟩

end Sys2Proof.Machine
end

section
/-! PROOFS. The round-key scheduler (42_key_scheduler.md): GENKEY's accept (R121), steps G_CHECK (R122) and G_KEY (R123), the key between
two GENKEYs (R124), and every completed GENKEY (R125). -/

namespace Sys2Proof.Machine

variable {s t u : State}

/-! ## The accept (R121) -/

theorem exec_genkey_idle (hi : s.phase = .idle) : exec .genkey s = .next (start .gDraw (destroyKey (noteCommand (encode .genkey) s))) :=
  congrArg Host.Outcome.next (whenIdle_idle _ s hi)

/-- Settles O25: the accept is the three updates of `exec_genkey_idle`, whose fields are those of the rule. -/
theorem genkeyAcceptDestroysTheKey : Obligations.GenkeyAcceptDestroysTheKey := by
  intro s hi
  exact exec_genkey_idle hi

theorem exec_genkey_keeps_invariant (hs : Invariant s) (hi : s.phase = .idle) (h : exec .genkey s = .next t) : Invariant t :=
  writeCmd_keeps_invariant (b := encode .genkey) hs hi (by rw [writeCmd, decode_encode]; exact h)

/-! ## Step G_CHECK (R122) -/

theorem engineStep_gCheck (hp : s.phase = .gCheck) : engineStep s = stepGCheck s := by
  rw [engineStep, hp]

theorem stepGCheck_rejects (h : s.p = 0 ∨ s.p % 2 = 0) : stepGCheck s = .next (raise .invalidModulus s) := by
  rw [stepGCheck, if_pos h]

/-- An odd number is not 0, so oddness alone passes the check. -/
theorem stepGCheck_passes (hodd : s.p % 2 = 1) : stepGCheck s = .next { s with phase := .gKey } := by
  rw [stepGCheck, if_neg (by omega)]

theorem Invariant.drawnCandidate_of_gCheck (hs : Invariant s) (hp : s.phase = .gCheck) : DrawnCandidate s := by
  obtain ⟨-, -, drawn, -⟩ : InGenkey s ∧ s.rnd = 0 ∧ DrawnCandidate s ∧ primeTest s.p s.cfg.certainty s.seed = true := by
    simpa only [PhaseFacts, hp] using hs.phase
  exact drawn

/-- Settles O26: the two outcomes of the check; forced bits leave only the second, since a drawn candidate is then odd. -/
theorem stepGCheckRejectsZeroAndEven : Obligations.StepGCheckRejectsZeroAndEven := by
  intro s hp
  rw [engineStep_gCheck hp]
  exact ⟨stepGCheck_rejects, fun _ => stepGCheck_passes, fun hs hf => stepGCheck_passes (hs.drawnCandidate_of_gCheck hp hf).1⟩

/-! ## Step G_KEY (R123) -/

theorem randBelow_lt (seed : Nat) {bound : Nat} (h : 0 < bound) : randBelow seed bound < bound := Nat.mod_lt _ h

theorem engineStep_gKey (hp : s.phase = .gKey) : engineStep s = stepGKey s := by
  rw [engineStep, hp]

theorem stepGKey_at_max (hpos : 0 < s.p) (hrnd : s.rnd < s.cfg.rounds) (hm : s.seed = 2 ^ s.cfg.seedBits - 1) :
    stepGKey s = .next (raise .seedOverflow s) := by
  rw [stepGKey, if_neg hpos.ne', if_neg hrnd.not_ge, draw_at_max _ _ hm]

/-- Below the maximum of SEED a key is drawn, and the last key completes. -/
theorem stepGKey_below_max (hpos : 0 < s.p) (hrnd : s.rnd < s.cfg.rounds) (hm : s.seed ≠ 2 ^ s.cfg.seedBits - 1) :
    stepGKey s =
      if s.rnd + 1 = s.cfg.rounds then
        .next { s with seed := s.seed + 1, rk := s.rk.set s.rnd (randBelow (s.seed + 1) s.p), rnd := s.rnd + 1, keyvalid := true,
                       done := true, phase := .idle }
      else
        .next { s with seed := s.seed + 1, rk := s.rk.set s.rnd (randBelow (s.seed + 1) s.p), rnd := s.rnd + 1, phase := .gKey } := by
  rw [stepGKey, if_neg hpos.ne', if_neg hrnd.not_ge, draw_below_max _ _ hm]
  rfl

/-- Settles O27: the draw fails, or it replaces the list's element RND and counts. -/
theorem stepGKeyDrawsOneRoundKey : Obligations.StepGKeyDrawsOneRoundKey := by
  intro s hp hpos hrnd hlen
  rw [engineStep_gKey hp]
  refine ⟨stepGKey_at_max hpos hrnd, fun hm => ⟨s.rk.set s.rnd (randBelow (s.seed + 1) s.p), ?_⟩⟩
  have hnew : (s.rk.set s.rnd (randBelow (s.seed + 1) s.p)).getD s.rnd 0 = randBelow (s.seed + 1) s.p := by
    simp [hlen, hrnd]
  refine ⟨by simpa using hlen, hnew, by rw [hnew]; exact randBelow_lt _ hpos, fun i hi => ?_, fun hlast => ?_, fun hmore => ?_⟩
  · simp [List.getElem?_set_ne hi.symm]
  · rw [stepGKey_below_max hpos hrnd hm, if_pos hlast]
  · rw [stepGKey_below_max hpos hrnd hm, if_neg hmore, hp]

/-! ## The key between two GENKEYs (R124) -/

theorem Invariant.phase_ne_gDraw (hs : Invariant s) (hk : s.keyvalid = true) : s.phase ≠ .gDraw := by
  intro hp
  obtain ⟨⟨hkey, -⟩, -⟩ : InGenkey s ∧ s.rnd = 0 := by simpa only [PhaseFacts, hp] using hs.phase
  simp [hk] at hkey

theorem Invariant.phase_ne_gKey (hs : Invariant s) (hk : s.keyvalid = true) : s.phase ≠ .gKey := by
  intro hp
  obtain ⟨⟨hkey, -⟩, -⟩ : InGenkey s ∧ s.rnd < s.cfg.rounds ∧ GoodModulus s ∧ ∀ k ∈ s.rk.take s.rnd, k < s.p := by
    simpa only [PhaseFacts, hp] using hs.phase
  simp [hk] at hkey

/-- Settles O28: by the write permissions of P, RK and KEYVALID, a step that changes one of them is a GENKEY accept or an engine step of
G_DRAW or G_KEY, and in these two phases there is no key. -/
theorem keyIsImmutableBetweenGenkeys : Obligations.KeyIsImmutableBetweenGenkeys := by
  intro s t hs hk hreset haccept h
  have rows := step_rowsOnly hreset h
  have hkeyvalid : t.keyvalid = s.keyvalid := by
    by_contra hne
    rcases rows.keyvalid hne with ⟨accept, -⟩ | ⟨-, hp, -⟩
    · exact haccept accept
    · exact hs.phase_ne_gKey hk hp
  refine ⟨?_, ?_, hkeyvalid.trans hk⟩
  · by_contra hne
    rcases rows.p hne with ⟨accept, -⟩ | ⟨-, hp⟩
    · exact haccept accept
    · exact hs.phase_ne_gDraw hk hp
  · by_contra hne
    rcases rows.rk hne with ⟨accept, -⟩ | ⟨-, hp⟩
    · exact haccept accept
    · exact hs.phase_ne_gKey hk hp

/-! ## Facts that every engine step of a run keeps -/

theorem engineRun_succ_cases {n : Nat} (h : engineRun (n + 1) s = .next t) :
    ∃ s1, engineStep s = .next s1 ∧ engineRun n s1 = .next t := by
  cases hs : engineStep s with
  | next s1 => exact ⟨s1, rfl, engineRun_succ hs ▸ h⟩
  | fault x => simp [engineRun, hs] at h
  | refused x => simp [engineRun, hs] at h

theorem engineRun_keeps {Q : State → Prop} (hstep : ∀ {s t : State}, Q s → engineStep s = .next t → Q t) {n : Nat} (hs : Q s)
    (h : engineRun n s = .next t) : Q t := by
  induction n generalizing s with
  | zero => cases h; exact hs
  | succ n ih =>
    obtain ⟨s1, h1, hrest⟩ := engineRun_succ_cases h
    exact ih (hstep hs h1) hrest

/-! ## The round keys drawn so far -/

/-- The register file RK after n key draws with the seeds that follow `seed`, from all keys 0 (R123). -/
def drawnKeys (rounds seed p n : Nat) : List Nat :=
  (List.range n).map (fun i => randBelow (seed + 1 + i) p) ++ List.replicate (rounds - n) 0

theorem drawnKeys_all (rounds seed p : Nat) :
    drawnKeys rounds seed p rounds = (List.range rounds).map (fun i => randBelow (seed + 1 + i) p) := by
  simp [drawnKeys]

theorem drawnKeys_set {rounds n : Nat} (seed p : Nat) (hn : n < rounds) :
    (drawnKeys rounds seed p n).set n (randBelow (seed + n + 1) p) = drawnKeys rounds seed p (n + 1) := by
  obtain ⟨m, hm⟩ : ∃ m, rounds - n = m + 1 := ⟨rounds - n - 1, by omega⟩
  have hm' : rounds - (n + 1) = m := by omega
  simp [drawnKeys, hm, hm', List.range_succ, List.replicate_succ, Nat.add_right_comm seed n 1]

/-! ## Every completed GENKEY (R125) -/

/-- The a-th candidate of a GENKEY that is accepted in s (R101). -/
def nthCandidate (s : State) (a : Nat) : Nat := candidate s.cfg (randBits (s.seed + a) s.cfg.w)

/-- Whether the tester accepts the a-th candidate (R102). -/
def passes (s : State) (a : Nat) : Bool := primeTest (nthCandidate s a) s.cfg.certainty (s.seed + a)

/-- The candidates before the a-th all fail. -/
def RejectedBefore (s : State) (a : Nat) : Prop := ∀ j, 1 ≤ j → j < a → passes s j = false

/-- The first candidate that passes is the a-th. -/
structure FirstPass (s : State) (a : Nat) : Prop where
  pos : 1 ≤ a
  rejected : RejectedBefore s a
  passed : passes s a = true

/-- A GENKEY accepted in s, before its first key draw: a candidates are drawn, P holds p. -/
def afterDraws (s : State) (a p : Nat) (ph : Phase) : State :=
  { s with cmdr := 0x01, done := false, rnd := 0, keyvalid := false, p := p, rk := List.replicate s.cfg.rounds 0, seed := s.seed + a,
           phase := ph }

/-- A GENKEY accepted in s whose a-th candidate became P, after n key draws. -/
def afterKeys (s : State) (a n : Nat) : State :=
  { afterDraws s a (nthCandidate s a) .gKey with
    rk := drawnKeys s.cfg.rounds (s.seed + a) (nthCandidate s a) n, rnd := n, seed := s.seed + a + n }

/-- What the last key draw does besides the draw: KEYVALID becomes 1 and the command completes (R123). -/
def completeKey (s : State) : State := complete { s with keyvalid := true }

/-- A key draw replaces the element RND of RK, counts and advances SEED (R123). -/
theorem afterKeys_succ {a n : Nat} (hn : n < s.cfg.rounds) :
    { afterKeys s a n with
      seed := s.seed + a + n + 1
      rk := (drawnKeys s.cfg.rounds (s.seed + a) (nthCandidate s a) n).set n (randBelow (s.seed + a + n + 1) (nthCandidate s a))
      rnd := n + 1 } = afterKeys s a (n + 1) := by
  rw [drawnKeys_set _ _ hn]
  rfl

/-- The states that the engine goes through after the accept of a GENKEY in s, one constructor for each phase. -/
inductive GenkeyState (s : State) : State → Prop where
  | draw (a p : Nat) : RejectedBefore s (a + 1) → GenkeyState s (afterDraws s a p .gDraw)
  | test (a : Nat) : RejectedBefore s (a + 1) → GenkeyState s (afterDraws s (a + 1) (nthCandidate s (a + 1)) .gTest)
  | check (a : Nat) : FirstPass s a → GenkeyState s (afterDraws s a (nthCandidate s a) .gCheck)
  | key (a n : Nat) : FirstPass s a → GenkeyState s (afterKeys s a n)
  | complete (a n : Nat) : FirstPass s a → n = s.cfg.rounds → GenkeyState s (completeKey (afterKeys s a n))
  | fault {t : State} : t.phase = .fault → GenkeyState s t

theorem GenkeyState.of_accept (hi : s.phase = .idle) (h : exec .genkey s = .next t) : GenkeyState s t := by
  cases (exec_genkey_idle hi).symm.trans h
  exact .draw 0 0 (fun j h1 h2 => by omega)

/-- The prime loop is left at the first candidate that passes; a rejected one extends the row of rejections. -/
theorem GenkeyState.of_test {a : Nat} (rejected : RejectedBefore s (a + 1))
    (h : stepGTest (afterDraws s (a + 1) (nthCandidate s (a + 1)) .gTest) = .next t) : GenkeyState s t := by
  obtain ⟨hpass, rfl⟩ | ⟨hfail, rfl⟩ := stepGTest_cases h
  · exact .check (a + 1) ⟨Nat.le_add_left 1 a, rejected, hpass⟩
  · refine .draw (a + 1) _ fun j h1 h2 => ?_
    obtain hlt | rfl := Nat.lt_succ_iff_lt_or_eq.1 h2
    · exact rejected j h1 hlt
    · exact hfail

theorem GenkeyState.of_key {a n : Nat} (first : FirstPass s a) (h : stepGKey (afterKeys s a n) = .next t) : GenkeyState s t := by
  obtain ⟨-, hn, hcases⟩ := stepGKey_cases h
  have hsucc := afterKeys_succ (s := s) (a := a) (n := n) hn
  rcases hcases with ⟨-, rfl⟩ | ⟨-, hlast, rfl⟩ | ⟨-, -, rfl⟩
  · exact .fault rfl
  · have last : GenkeyState s (completeKey (afterKeys s a (n + 1))) := .complete a (n + 1) first hlast
    rw [← hsucc] at last
    exact last
  · have more : GenkeyState s (afterKeys s a (n + 1)) := .key a (n + 1) first
    rw [← hsucc] at more
    exact more

theorem engineStep_keeps_genkeyState (hu : GenkeyState s u) (h : engineStep u = .next t) : GenkeyState s t := by
  cases hu with
  | draw a p rejected =>
    obtain ⟨-, rfl⟩ | ⟨-, rfl⟩ := stepGDraw_cases h
    · exact .fault rfl
    · exact .test a rejected
  | test a rejected => exact .of_test rejected h
  | check a first =>
    obtain ⟨-, rfl⟩ | ⟨-, -, rfl⟩ := stepGCheck_cases h
    · exact .fault rfl
    · exact .key a 0 first
  | key a n first => exact .of_key first h
  | complete a n first hn => cases h; exact .complete a n first hn
  | fault hf => cases (engineStep_not_busy u (by simp [busy, hf])).symm.trans h; exact .fault hf

/-- The register values that R125 lists, ERR being 0 in IDLE already. -/
theorem completeKey_afterKeys (a : Nat) (herr : s.err = 0) :
    completeKey (afterKeys s a s.cfg.rounds) =
      { s with
        cmdr := 0x01, p := nthCandidate s a,
        rk := (List.range s.cfg.rounds).map (fun i => randBelow (s.seed + a + 1 + i) (nthCandidate s a)),
        seed := s.seed + a + s.cfg.rounds, rnd := s.cfg.rounds, keyvalid := true, done := true, phase := .idle, err := 0 } := by
  rw [← drawnKeys_all, ← herr]
  rfl

/-- Of the states of a GENKEY only the completed ones are in IDLE. -/
theorem GenkeyState.completed (hu : GenkeyState s u) (hp : u.phase = .idle) :
    ∃ a, FirstPass s a ∧ u = completeKey (afterKeys s a s.cfg.rounds) := by
  cases hu with
  | complete a n first hn => exact ⟨a, first, by rw [hn]⟩
  | fault hf => simp [hf] at hp
  | _ => cases hp

/-- Settles O30: `GenkeyState` follows the engine from the accept to the end state, and the invariant, which every step keeps, gives there
the bound on SEED and a P that is odd and above 0. -/
theorem everyCompletedGenkeyEndsAsListed : Obligations.EveryCompletedGenkeyEndsAsListed := by
  intro s t u n hs hi haccept hrun hu
  have hinv : Invariant u := engineRun_keeps engineStep_keeps_invariant (exec_genkey_keeps_invariant hs hi haccept) hrun
  have hstate : GenkeyState s u := engineRun_keeps engineStep_keeps_genkeyState (.of_accept hi haccept) hrun
  obtain ⟨a, first, rfl⟩ := hstate.completed hu
  have hseed : s.seed + a + s.cfg.rounds < 2 ^ s.cfg.seedBits := hinv.fits.seed
  obtain ⟨good, -⟩ := hinv.key rfl
  have herr : s.err = 0 := hs.errPhase.2 (by simp [hi])
  exact ⟨a, nthCandidate s a, first.pos, Nat.le_sub_one_of_lt hseed, rfl, first.rejected, first.passed, good.odd, good.pos,
    completeKey_afterKeys a herr⟩

end Sys2Proof.Machine
end

section
/-! PROOFS. The round engine (43_feistel_engine.md): the inverse and the direction, the steps F (R142), T (R143), ACC (R144) and
SWAP (R145), the range invariants of a running ENC or DEC (R148) and its JOIN step (R149). -/

namespace Sys2Proof.Machine

variable {s : State} {d : Dir}

/-! ## The inverse with the zero policy (R146) -/

@[simp] theorem inv0_zero (p : Nat) : inv0 0 p = some 0 := rfl

theorem inv0_of_coprime {r p : Nat} (hr : r ≠ 0) (h : Nat.gcd r p = 1) : inv0 r p = some (modinv r p) := by
  simp [inv0, invertible, hr, h]

theorem inv0_eq_none_iff {r p : Nat} : inv0 r p = none ↔ r ≠ 0 ∧ Nat.gcd r p ≠ 1 := by
  by_cases hr : r = 0
  · simp [inv0, hr]
  · simp [inv0, invertible, hr]

/-! ## The direction of the command in progress -/

theorem direction_enc (h : s.cmdr.extractLsb' 0 4 = 2) : direction s = some .enc := if_pos h

theorem direction_dec (h : s.cmdr.extractLsb' 0 4 = 3) : direction s = some .dec := by
  have hop : opcode s = 3 := h
  rw [direction, hop]
  rfl

theorem direction_of_cmdr (h : s.cmdr = encode (commandOf d)) : direction s = some d := by
  cases d with
  | enc => exact direction_enc (by rw [h]; rfl)
  | dec => exact direction_dec (by rw [h]; rfl)

@[simp] theorem length_keyOrder (d : Dir) (rk : List Nat) : (keyOrder d rk).length = rk.length := by
  cases d with
  | enc => rfl
  | dec => exact List.length_reverse

/-- The round key of a round is the element of that number in the order of use (R143). -/
theorem roundKey_eq_keyOrder (d : Dir) (hlen : s.rk.length = s.cfg.rounds) : roundKey s d = (keyOrder d s.rk)[s.rnd]? := by
  unfold roundKey
  split
  · next hrnd =>
    cases d with
    | enc => rfl
    | dec => rw [keyOrder, List.getElem?_reverse (hlen ▸ hrnd), hlen, keyIndex]
  · next hrnd =>
    have hout : (keyOrder d s.rk).length ≤ s.rnd := by rw [length_keyOrder]; omega
    exact (List.getElem?_eq_none hout).symm

theorem roundKey_eq_getD (d : Dir) (hrnd : s.rnd < s.cfg.rounds) (hlen : s.rk.length = s.cfg.rounds) :
    roundKey s d = some (s.rk.getD (keyIndex d s.cfg.rounds s.rnd) 0) := by
  have hidx : keyIndex d s.cfg.rounds s.rnd < s.rk.length := by cases d <;> simp only [keyIndex] <;> omega
  rw [roundKey, if_pos hrnd, List.getElem?_eq_getElem hidx, List.getD_eq_getElem _ _ hidx]

/-! ## The round steps where they have a next state -/

theorem engineStep_f {f : Nat} (hp : s.phase = .f) (hpos : 0 < s.p) (h : inv0 s.r s.p = some f) :
    engineStep s = .next { s with f := f, phase := .t } := by
  rw [engineStep, hp]
  by_cases hr : s.r = 0
  · rw [hr, inv0_zero] at h
    cases h
    exact if_pos hr
  · have hgcd : Nat.gcd s.r s.p = 1 := by
      by_contra hne
      simp [inv0_eq_none_iff.2 ⟨hr, hne⟩] at h
    rw [inv0_of_coprime hr hgcd] at h
    cases h
    simp [stepF, hr, hpos.ne', invertible, hgcd]

theorem engineStep_f_fault (hp : s.phase = .f) (hpos : 0 < s.p) (h : inv0 s.r s.p = none) :
    engineStep s = .next (raise .notInvertible s) := by
  obtain ⟨hr, hgcd⟩ := inv0_eq_none_iff.1 h
  rw [engineStep, hp]
  simp [stepF, hr, hpos.ne', invertible, hgcd]

theorem engineStep_t {k : Nat} (hp : s.phase = .t) (hpos : 0 < s.p) (hd : direction s = some d) (hk : roundKey s d = some k) :
    engineStep s = .next { s with t := modAdd s.f k s.p, phase := .acc } := by
  rw [engineStep, hp]
  simp [stepT, hpos.ne', hd, hk]

theorem engineStep_acc (hp : s.phase = .acc) (hpos : 0 < s.p) (hd : direction s = some d) :
    engineStep s = .next { s with l := accumulate d s.l s.t s.p, phase := .swap } := by
  rw [engineStep, hp]
  simp [stepAcc, hpos.ne', hd]

theorem engineStep_swap_last (hp : s.phase = .swap) (hrnd : s.rnd + 1 = s.cfg.rounds) :
    engineStep s = .next { s with rnd := s.rnd + 1, phase := .join } := by
  rw [engineStep, hp]
  simp [stepSwap, hrnd, show ¬ s.cfg.rounds ≤ s.rnd by omega]

theorem engineStep_swap_more (hp : s.phase = .swap) (hrnd : s.rnd + 1 < s.cfg.rounds) (hl : s.l < 2 ^ s.cfg.w) :
    engineStep s = .next { s with l := s.r, r := s.l, rnd := s.rnd + 1, phase := .f } := by
  rw [engineStep, hp]
  simp [stepSwap, hrnd.ne, show ¬ s.cfg.rounds ≤ s.rnd by omega, hl]

theorem engineStep_join_fits (hp : s.phase = .join) (hv : s.l * s.p + s.r < 2 ^ s.cfg.vw) :
    engineStep s = .next { s with v := s.l * s.p + s.r, done := true, phase := .idle } := by
  rw [engineStep, hp]
  exact if_neg hv.not_ge

/-! ## Steps F, T and ACC -/

/-- Settles O31: `inv0` splits the cases, and the inverse has its property by `mul_modinv_modEq_one`. -/
theorem stepFInvertsTheRightHalf : Obligations.StepFInvertsTheRightHalf := by
  intro s hp hpos
  have hcoprime (hr : s.r ≠ 0) (h : Nat.gcd s.r s.p = 1) :
      ∃ x, x < s.p ∧ (s.r * x) % s.p = 1 % s.p ∧ engineStep s = .next { s with f := x, phase := .t } :=
    ⟨modinv s.r s.p, modinv_lt _ hpos, mul_modinv_modEq_one hpos h, engineStep_f hp hpos (inv0_of_coprime hr h)⟩
  refine ⟨fun hr => engineStep_f hp hpos (by rw [hr, inv0_zero]),
    fun hr h => engineStep_f_fault hp hpos (inv0_eq_none_iff.2 ⟨hr, h⟩), hcoprime, fun hprime hr hlt => ?_⟩
  have h := hcoprime hr.ne' (Nat.coprime_of_lt_prime hr.ne' hlt hprime).symm
  rwa [Nat.mod_eq_of_lt hprime.one_lt] at h

/-- Settles O32: the key index is that of the direction. -/
theorem stepTAddsTheRoundKey : Obligations.StepTAddsTheRoundKey := by
  intro s hp hpos hrnd hlen
  exact ⟨fun h => engineStep_t hp hpos (direction_enc h) (roundKey_eq_getD .enc hrnd hlen),
    fun h => engineStep_t hp hpos (direction_dec h) (roundKey_eq_getD .dec hrnd hlen)⟩

/-- Settles O33: ACC adds or subtracts by the direction, and the difference has its property by `modSub_add_modEq`. -/
theorem stepAccUpdatesTheLeftHalf : Obligations.StepAccUpdatesTheLeftHalf := by
  intro s hp hpos
  exact ⟨fun h => engineStep_acc hp hpos (direction_enc h),
    fun h => ⟨modSub s.l s.t s.p, modSub_lt _ _ hpos, modSub_add_modEq _ _ hpos, engineStep_acc hp hpos (direction_dec h)⟩⟩

/-! ## The range invariants (R148) -/

theorem Invariant.inRound (hs : Invariant s) (hp : s.phase = .f ∨ s.phase = .t ∨ s.phase = .acc ∨ s.phase = .swap) : InRound s := by
  have h := hs.phase
  rcases hp with hp | hp | hp | hp <;> simp only [PhaseFacts, hp] at h
  · exact h
  · exact h.1
  · exact h.1
  · exact h.1

/-- The right half is a residue in every round, the left half from round 1 on. -/
theorem Invariant.halves_of_round (hs : Invariant s) (hp : s.phase = .f ∨ s.phase = .t ∨ s.phase = .acc ∨ s.phase = .swap) :
    s.r < s.p ∧ (0 < s.rnd → s.l < s.p) := by
  obtain ⟨-, -, -, hr, hl⟩ := hs.inRound hp
  exact ⟨hr, hl⟩

theorem Invariant.l_lt_of_swap (hs : Invariant s) (hp : s.phase = .swap) : s.l < s.p := by
  obtain ⟨-, hl⟩ : InRound s ∧ s.l < s.p := by simpa only [PhaseFacts, hp] using hs.phase
  exact hl

/-- Of the commands that reach JOIN, an ENC or DEC comes there from its last round. -/
theorem Invariant.cipher_join (hs : Invariant s) (hp : s.phase = .join) (hc : s.cmdr = 0x02 ∨ s.cmdr = 0x03) :
    s.rnd = s.cfg.rounds ∧ s.l < s.p ∧ s.r < s.p := by
  have h := hs.phase
  simp only [PhaseFacts, hp] at h
  obtain ⟨-, ⟨-, halves⟩ | ⟨hjoin, -⟩⟩ := h
  · exact halves
  · rw [hjoin] at hc
    exact absurd hc (by decide)

/-- Settles O34: SWAP's two cases; a left half that is a residue fits R. -/
theorem stepSwapSwapsUnlessLastRound : Obligations.StepSwapSwapsUnlessLastRound := by
  intro s hs hp
  obtain ⟨-, -, hrnd, -⟩ := hs.inRound (.inr (.inr (.inr hp)))
  refine ⟨fun hne => engineStep_swap_more hp (by omega) ((hs.l_lt_of_swap hp).trans hs.fits.p), fun heq => ?_⟩
  have hlast : s.rnd + 1 = s.cfg.rounds := by omega
  rw [← hlast]
  exact engineStep_swap_last hp hlast

/-- Settles O36: every reachable state has the invariant, which holds the ranges phase by phase. -/
theorem halvesStayResiduesDuringTheRounds : Obligations.HalvesStayResiduesDuringTheRounds := by
  intro c s h
  obtain rfl := h.cfg
  have hs := h.invariant
  refine ⟨fun hp => hs.halves_of_round (.inl hp), fun hp => hs.halves_of_round (by tauto),
    fun hp => ⟨hs.l_lt_of_swap hp, (hs.halves_of_round (.inr (.inr (.inr hp)))).1⟩, fun hp hc => ?_⟩
  obtain ⟨hrnd, hl, hr⟩ := hs.cipher_join hp hc
  exact ⟨hl, hr, hrnd⟩

/-! ## The JOIN step of an ENC or DEC (R149) -/

/-- A pair of residues is the quotient and remainder of a number below the square. -/
theorem pair_lt_sq {l r p : Nat} (hl : l < p) (hr : r < p) : l * p + r < p ^ 2 :=
  calc l * p + r
    _ < l * p + p := Nat.add_lt_add_left hr _
    _ = (l + 1) * p := (Nat.succ_mul l p).symm
    _ ≤ p * p := Nat.mul_le_mul_right p hl
    _ = p ^ 2 := (Nat.pow_two p).symm

/-- V has at least 2W bits, so the square of the modulus is in its range (R5). -/
theorem Invariant.sq_lt_vw (hs : Invariant s) : s.p ^ 2 < 2 ^ s.cfg.vw := by
  obtain ⟨-, -, hvw, -, -⟩ := hs.cfg
  calc s.p ^ 2
    _ < (2 ^ s.cfg.w) ^ 2 := Nat.pow_lt_pow_left hs.fits.p two_ne_zero
    _ = 2 ^ (2 * s.cfg.w) := by rw [← Nat.pow_mul, Nat.mul_comm]
    _ ≤ 2 ^ s.cfg.vw := Nat.pow_le_pow_right Nat.two_pos hvw

/-- Settles O37: both halves are residues there, and a number below P^2 fits V. -/
theorem joinOfACipherNeverOverflows : Obligations.JoinOfACipherNeverOverflows := by
  intro s hs hp hc
  obtain ⟨-, hl, hr⟩ := hs.cipher_join hp hc
  have hlt := pair_lt_sq hl hr
  exact ⟨hlt, engineStep_join_fits hp (hlt.trans hs.sq_lt_vw)⟩

end Sys2Proof.Machine
end

section
/-! PROOFS. The closed form of ENC and DEC (R151): what one round does, the rounds run backwards (R152), and the example values (R154). -/

namespace Sys2Proof.Machine

variable {d : Dir} {p k v f t : Nat} {ks rk : List Nat} {h h' : Halves}

/-! ## One round -/

/-- One round before its swap (R142 to R144). None: the right half has no inverse. -/
def roundOf (d : Dir) (p k : Nat) (h : Halves) : Option Halves :=
  (inv0 h.r p).map fun f => { l := accumulate d h.l (modAdd f k p) p, r := h.r, f := f, t := modAdd f k p }

/-- The halves changed over (R145). -/
def Halves.swap (h : Halves) : Halves := { h with l := h.r, r := h.l }

@[simp] theorem Halves.swap_l (h : Halves) : h.swap.l = h.r := rfl
@[simp] theorem Halves.swap_r (h : Halves) : h.swap.r = h.l := rfl

/-- Two pairs with the same halves, whatever F and T they have. -/
def SameHalves (h h' : Halves) : Prop := h.l = h'.l ∧ h.r = h'.r

theorem SameHalves.swap (heq : SameHalves h h') : SameHalves h.swap h'.swap := ⟨heq.2, heq.1⟩

theorem roundOf_eq_none_iff : roundOf d p k h = none ↔ inv0 h.r p = none := Option.map_eq_none_iff

theorem roundOf_eq_some_iff :
    roundOf d p k h = some h' ↔
      ∃ f, inv0 h.r p = some f ∧
        { l := accumulate d h.l (modAdd f k p) p, r := h.r, f := f, t := modAdd f k p } = h' := Option.map_eq_some_iff

/-- A round replaces F and T, so it does not depend on them (R150). -/
theorem roundOf_congr (heq : SameHalves h h') : roundOf d p k h = roundOf d p k h' := by
  rw [roundOf, roundOf, heq.1, heq.2]

/-- A round keeps the right half and leaves a residue as the left half. -/
theorem roundOf_halves (hp : 0 < p) (hround : roundOf d p k h = some h') : h'.r = h.r ∧ h'.l < p := by
  obtain ⟨f, -, rfl⟩ := roundOf_eq_some_iff.1 hround
  exact ⟨rfl, accumulate_lt d _ _ hp⟩

theorem accumulate_undoing {l : Nat} (d : Dir) (t : Nat) (hl : l < p) : accumulate (undoing d) (accumulate d l t p) t p = l := by
  have hp : 0 < p := Nat.zero_lt_of_lt hl
  cases d with
  | enc => exact modSub_eq_of_add_modEq hl (Nat.mod_modEq (l + t) p).symm
  | dec => exact Nat.mod_eq_of_modEq (modSub_add_modEq l t hp) hl

/-- The other direction's round with the same key undoes a round: its right half, and so its T, is the same. -/
theorem roundOf_undoing (hl : h.l < p) (hround : roundOf d p k h = some h') :
    ∃ g, roundOf (undoing d) p k h' = some g ∧ SameHalves g h := by
  obtain ⟨f, hinv, rfl⟩ := roundOf_eq_some_iff.1 hround
  exact ⟨_, roundOf_eq_some_iff.2 ⟨f, hinv, rfl⟩, accumulate_undoing d _ hl, rfl⟩

/-- With a prime modulus no residue lacks an inverse. -/
theorem roundOf_isSome_of_prime (d : Dir) (k : Nat) (hp : Nat.Prime p) (hr : h.r < p) : ∃ h', roundOf d p k h = some h' := by
  refine Option.ne_none_iff_exists'.1 fun hnone => ?_
  obtain ⟨hne, hgcd⟩ := inv0_eq_none_iff.1 (roundOf_eq_none_iff.1 hnone)
  exact hgcd (Nat.coprime_of_lt_prime hne hr hp).symm

/-! ## The rounds as a chain of rounds and swaps -/

theorem rounds_singleton : rounds d p [k] h = roundOf d p k h := by
  rw [rounds, roundOf]
  cases inv0 h.r p <;> rfl

theorem rounds_cons (hks : ks ≠ []) : rounds d p (k :: ks) h = (roundOf d p k h).bind fun h1 => rounds d p ks h1.swap := by
  obtain ⟨k2, ks, rfl⟩ := List.exists_cons_of_ne_nil hks
  rw [rounds, roundOf]
  cases inv0 h.r p <;> rfl

theorem rounds_append (hks : ks ≠ []) :
    rounds d p (ks ++ [k]) h = (rounds d p ks h).bind fun h1 => roundOf d p k h1.swap := by
  induction ks generalizing h with
  | nil => exact absurd rfl hks
  | cons k1 ks ih =>
    rw [List.cons_append, rounds_cons (by simp)]
    rcases ks with _ | ⟨k2, ks⟩
    · simp only [List.nil_append, rounds_singleton]
    · simp only [ih (List.cons_ne_nil k2 ks), rounds_cons (List.cons_ne_nil k2 ks), Option.bind_assoc]

/-- F and T before the first round do not matter (R150). -/
theorem rounds_congr (hks : ks ≠ []) (heq : SameHalves h h') : rounds d p ks h = rounds d p ks h' := by
  obtain ⟨k, ks, rfl⟩ := List.exists_cons_of_ne_nil hks
  rcases ks with _ | ⟨k2, ks⟩
  · rw [rounds_singleton, rounds_singleton, roundOf_congr heq]
  · rw [rounds_cons (by simp), rounds_cons (by simp), roundOf_congr heq]

/-- The rounds end with two residues (R148). -/
theorem rounds_lt (hks : ks ≠ []) (hr : h.r < p) (hrun : rounds d p ks h = some h') : h'.l < p ∧ h'.r < p := by
  have hp : 0 < p := Nat.zero_lt_of_lt hr
  induction ks generalizing h with
  | nil => exact absurd rfl hks
  | cons k ks ih =>
    rcases ks with _ | ⟨k2, ks⟩
    · rw [rounds_singleton] at hrun
      obtain ⟨hright, hleft⟩ := roundOf_halves hp hrun
      exact ⟨hleft, hright ▸ hr⟩
    · rw [rounds_cons (by simp), Option.bind_eq_some_iff] at hrun
      obtain ⟨h1, hround, hrest⟩ := hrun
      exact ih (by simp) (roundOf_halves hp hround).2 hrest

theorem rounds_isSome_of_prime (ks : List Nat) (hp : Nat.Prime p) (hr : h.r < p) : ∃ h', rounds d p ks h = some h' := by
  induction ks generalizing h with
  | nil => exact ⟨h, rfl⟩
  | cons k ks ih =>
    obtain ⟨h1, hround⟩ := roundOf_isSome_of_prime d k hp hr
    rcases ks with _ | ⟨k2, ks⟩
    · exact ⟨h1, rounds_singleton.trans hround⟩
    · rw [rounds_cons (by simp), hround]
      exact ih (roundOf_halves hp.pos hround).2

/-- The rounds of the other direction over the keys in reverse undo the rounds: the last round is undone first, and each swap stands
between the same two rounds (R152). -/
theorem rounds_undoing (hks : ks ≠ []) (hl : h.l < p) (hr : h.r < p) (hrun : rounds d p ks h = some h') :
    ∃ g, rounds (undoing d) p ks.reverse h' = some g ∧ SameHalves g h := by
  have hp : 0 < p := Nat.zero_lt_of_lt hl
  induction ks generalizing h with
  | nil => exact absurd rfl hks
  | cons k ks ih =>
    rcases ks with _ | ⟨k2, ks⟩
    · rw [rounds_singleton] at hrun
      rw [List.reverse_singleton, rounds_singleton]
      exact roundOf_undoing hl hrun
    · rw [rounds_cons (by simp), Option.bind_eq_some_iff] at hrun
      obtain ⟨h1, hround, hrest⟩ := hrun
      obtain ⟨hright, hleft⟩ := roundOf_halves hp hround
      obtain ⟨g1, hback, hsame⟩ := ih (by simp) (hright ▸ hr : h1.r < p) hleft hrest
      obtain ⟨g, hlast, hg⟩ := roundOf_undoing hl hround
      refine ⟨g, ?_, hg⟩
      rw [List.reverse_cons, rounds_append (by simp), hback, Option.bind_some, ← hlast]
      exact roundOf_congr hsame.swap

/-! ## The closed form -/

theorem keyOrder_ne_nil (d : Dir) (hrk : rk ≠ []) : keyOrder d rk ≠ [] := by
  cases d with
  | enc => exact hrk
  | dec => simpa [keyOrder] using hrk

theorem keyOrder_undoing (d : Dir) (rk : List Nat) : keyOrder (undoing d) rk = (keyOrder d rk).reverse := by
  cases d with
  | enc => rfl
  | dec => exact (List.reverse_reverse rk).symm

/-- The values F and T before the command do not matter (R150). -/
theorem cipherHalves_congr (hrk : rk ≠ []) (f t f' t' : Nat) : cipherHalves d p rk v f t = cipherHalves d p rk v f' t' :=
  rounds_congr (keyOrder_ne_nil d hrk) ⟨rfl, rfl⟩

theorem cipherHalves_lt (hp : 0 < p) (hrk : rk ≠ []) (hrun : cipherHalves d p rk v f t = some h) : h.l < p ∧ h.r < p :=
  rounds_lt (keyOrder_ne_nil d hrk) (Nat.mod_lt v hp) hrun

theorem cipherHalves_isSome_of_prime (hp : Nat.Prime p) : ∃ h, cipherHalves d p rk v f t = some h :=
  rounds_isSome_of_prime _ hp (Nat.mod_lt v hp.pos)

/-- The quotient and the remainder of the number that a pair of residues makes are the pair. -/
theorem pair_div_mod {l r : Nat} (hr : r < p) : (l * p + r) / p = l ∧ (l * p + r) % p = r := by
  have hdiv : (l * p + r) / p = l := by
    rw [Nat.mul_comm, Nat.mul_add_div (Nat.zero_lt_of_lt hr), Nat.div_eq_of_lt hr, Nat.add_zero]
  exact ⟨hdiv, Nat.mul_add_mod_of_lt hr⟩

/-- Below the square of the modulus the other direction gives the halves of the value back (R152). -/
theorem cipherHalves_undoing (hp : 0 < p) (hrk : rk ≠ []) (hv : v < p ^ 2) (hrun : cipherHalves d p rk v f t = some h) (f' t' : Nat) :
    ∃ g, cipherHalves (undoing d) p rk (h.l * p + h.r) f' t' = some g ∧ g.l * p + g.r = v := by
  have hq : v / p < p := Nat.div_lt_of_lt_mul (Nat.pow_two p ▸ hv)
  obtain ⟨hdiv, hmod⟩ := pair_div_mod (l := h.l) (cipherHalves_lt hp hrk hrun).2
  obtain ⟨g, hback, hl, hr⟩ := rounds_undoing (keyOrder_ne_nil d hrk) hq (Nat.mod_lt v hp) hrun
  refine ⟨g, ?_, ?_⟩
  · rw [cipherHalves, hdiv, hmod, ← hback, keyOrder_undoing]
    exact rounds_congr (by simpa using keyOrder_ne_nil d hrk) ⟨rfl, rfl⟩
  · rw [hl, hr]
    exact Nat.div_add_mod' v p

/-- Settles O43: the closed form computes the example values. -/
theorem identityIsPossible : Obligations.IdentityIsPossible := by
  unfold Obligations.IdentityIsPossible
  decide

end Sys2Proof.Machine
end

section
/-! PROOFS. The engine's run of an ENC or DEC: it goes through the rounds of the closed form (R151), so it is pure (R150) and the two
directions undo each other below P^2 (R152). -/

namespace Sys2Proof.Machine

variable {s t u : State} {d : Dir} {k : Nat} {ks used : List Nat} {h h' : Halves}

/-! ## The accept and step SPLIT -/

/-- The state after an ENC or DEC is accepted in s with a key (R191). -/
def accepted (d : Dir) (s : State) : State := start .split (noteCommand (encode (commandOf d)) s)

theorem exec_commandOf (d : Dir) (hi : s.phase = .idle) (hk : s.keyvalid = true) : exec (commandOf d) s = .next (accepted d s) := by
  cases d <;> simp [commandOf, exec, execEnc, execDec, acceptKeyed, hi, hk, accepted]

theorem exec_keeps_invariant {i : Instr} (hs : Invariant s) (hi : s.phase = .idle) (hexec : exec i s = .next t) : Invariant t :=
  writeCmd_keeps_invariant (b := encode i) hs hi (by rw [writeCmd, decode_encode]; exact hexec)

/-- A state in the rounds: s with the halves, F and T of the closed form, in round n. -/
def atRound (s : State) (h : Halves) (n : Nat) (ph : Phase) : State :=
  { s with l := h.l, r := h.r, f := h.f, t := h.t, rnd := n, phase := ph }

/-- The halves that step SPLIT makes of V (R171), with F and T as they were. -/
def splitHalves (s : State) : Halves := { l := s.v / s.p, r := s.v % s.p, f := s.f, t := s.t }

theorem engineStep_split (d : Dir) (hpos : 0 < s.p) :
    engineStep (accepted d s) = .next (atRound (accepted d s) (splitHalves s) 0 .f) := by
  have hop : opcode (accepted d s) ≠ opcOf .split := by
    have henc : opcode (accepted d s) = opcOf (commandOf d) := by cases d <;> rfl
    rw [henc]
    cases d <;> decide
  have hp : (accepted d s).p ≠ 0 := hpos.ne'
  show stepSplit (accepted d s) = _
  rw [stepSplit, if_neg hp]
  exact if_neg hop

/-! ## The rounds -/

/-- What the rounds need of a state: a modulus that fits, ROUNDS round keys and a direction. -/
structure Cipherable (d : Dir) (s : State) : Prop where
  pos : 0 < s.p
  fits : s.p < 2 ^ s.cfg.w
  rkLength : s.rk.length = s.cfg.rounds
  direction : direction s = some d

theorem Cipherable.length_keyOrder (hs : Cipherable d s) : (keyOrder d s.rk).length = s.cfg.rounds :=
  (Machine.length_keyOrder d s.rk).trans hs.rkLength

/-- The keys used, the round's own and those still to come are ROUNDS together. -/
theorem Cipherable.length_used (hs : Cipherable d s) (hkeys : keyOrder d s.rk = used ++ k :: ks) :
    used.length + (ks.length + 1) = s.cfg.rounds := by
  rw [← hs.length_keyOrder, hkeys, List.length_append, List.length_cons]

/-- Three engine steps make one round of the closed form. -/
theorem engineRun_round (hs : Cipherable d s) (hkeys : keyOrder d s.rk = used ++ k :: ks) (hround : roundOf d s.p k h = some h') :
    engineRun 3 (atRound s h used.length .f) = .next (atRound s h' used.length .swap) := by
  obtain ⟨f, hinv, rfl⟩ := roundOf_eq_some_iff.1 hround
  have hf : engineStep (atRound s h used.length .f) = .next (atRound s { h with f := f } used.length .t) :=
    engineStep_f rfl hs.pos hinv
  have hused : (keyOrder d s.rk)[used.length]? = some k := by simp [hkeys]
  have hkey : roundKey (atRound s { h with f := f } used.length .t) d = some k :=
    (roundKey_eq_keyOrder (s := atRound s { h with f := f } used.length .t) d hs.rkLength).trans hused
  have ht : engineStep (atRound s { h with f := f } used.length .t) =
      .next (atRound s { h with f := f, t := modAdd f k s.p } used.length .acc) := engineStep_t rfl hs.pos hs.direction hkey
  have hacc : engineStep (atRound s { h with f := f, t := modAdd f k s.p } used.length .acc) =
      .next (atRound s { l := accumulate d h.l (modAdd f k s.p) s.p, r := h.r, f := f, t := modAdd f k s.p } used.length .swap) :=
    engineStep_acc rfl hs.pos hs.direction
  rw [engineRun_succ hf, engineRun_succ ht, engineRun_succ hacc, engineRun_zero]

theorem engineRun_last_round (hs : Cipherable d s) (hkeys : keyOrder d s.rk = used ++ [k]) (hround : roundOf d s.p k h = some h') :
    engineRun 4 (atRound s h used.length .f) = .next (atRound s h' s.cfg.rounds .join) := by
  have hrnd : used.length + 1 = s.cfg.rounds := hs.length_used hkeys
  rw [engineRun_add 3 1 (engineRun_round hs hkeys hround),
    engineRun_succ (engineStep_swap_last (s := atRound s h' used.length .swap) rfl hrnd), ← hrnd]
  rfl

theorem engineRun_earlier_round (hs : Cipherable d s) (hkeys : keyOrder d s.rk = used ++ k :: ks) (hks : ks ≠ [])
    (hround : roundOf d s.p k h = some h') :
    engineRun 4 (atRound s h used.length .f) = .next (atRound s h'.swap (used.length + 1) .f) := by
  have hlen := hs.length_used hkeys
  have hpos : 0 < ks.length := List.length_pos_iff.2 hks
  have hrnd : used.length + 1 < s.cfg.rounds := by omega
  have hfits : h'.l < 2 ^ s.cfg.w := (roundOf_halves hs.pos hround).2.trans hs.fits
  rw [engineRun_add 3 1 (engineRun_round hs hkeys hround),
    engineRun_succ (engineStep_swap_more (s := atRound s h' used.length .swap) rfl hrnd hfits)]
  rfl

/-- Where the closed form has a value for the keys still to come, the engine reaches JOIN with it. -/
theorem engineRun_rounds (hs : Cipherable d s) (hkeys : keyOrder d s.rk = used ++ ks) (hks : ks ≠ [])
    (hrun : rounds d s.p ks h = some h') :
    engineRun (4 * ks.length) (atRound s h used.length .f) = .next (atRound s h' s.cfg.rounds .join) := by
  induction ks generalizing used h with
  | nil => exact absurd rfl hks
  | cons k ks ih =>
    by_cases hlast : ks = []
    · subst hlast
      exact engineRun_last_round hs hkeys (rounds_singleton ▸ hrun)
    · rw [rounds_cons hlast, Option.bind_eq_some_iff] at hrun
      obtain ⟨h1, hround, hrest⟩ := hrun
      have hnext := ih (used := used ++ [k]) (by simpa using hkeys) hlast hrest
      rw [List.length_cons, Nat.mul_succ, Nat.add_comm, engineRun_add 4 _ (engineRun_earlier_round hs hkeys hlast hround)]
      simpa using hnext

/-- Where the closed form stops, the engine reaches an F step whose right half has no inverse. -/
theorem engineRun_rounds_stop (hs : Cipherable d s) (hkeys : keyOrder d s.rk = used ++ ks) (hrun : rounds d s.p ks h = none) :
    ∃ m n g, m < 4 * ks.length ∧ n < s.cfg.rounds ∧ inv0 g.r s.p = none ∧
      engineRun m (atRound s h used.length .f) = .next (atRound s g n .f) := by
  induction ks generalizing used h with
  | nil => simp [rounds] at hrun
  | cons k ks ih =>
    have hlen := hs.length_used hkeys
    cases hround : roundOf d s.p k h with
    | none =>
      exact ⟨0, used.length, h, by simp, by omega, roundOf_eq_none_iff.1 hround, rfl⟩
    | some h1 =>
      have hmore : ks ≠ [] := by
        rintro rfl
        simp [rounds_singleton, hround] at hrun
      rw [rounds_cons hmore, hround, Option.bind_some] at hrun
      obtain ⟨m, n, g, hm, hn, hinv, hreach⟩ := ih (used := used ++ [k]) (by simpa using hkeys) hrun
      refine ⟨4 + m, n, g, by rw [List.length_cons]; omega, hn, hinv, ?_⟩
      rw [engineRun_add 4 m (engineRun_earlier_round hs hkeys hmore hround)]
      simpa using hreach

/-! ## The whole run -/

theorem Cipherable.of_accepted (d : Dir) (hpos : 0 < s.p) (hfits : s.p < 2 ^ s.cfg.w) (hlen : s.rk.length = s.cfg.rounds) :
    Cipherable d (accepted d s) := ⟨hpos, hfits, hlen, direction_of_cmdr rfl⟩

theorem Invariant.cipherable (hs : Invariant s) (hk : s.keyvalid = true) (d : Dir) : Cipherable d (accepted d s) :=
  .of_accepted d (hs.p_pos hk) hs.fits.p hs.fits.rkLength

theorem Invariant.rk_ne_nil (hs : Invariant s) : s.rk ≠ [] :=
  List.ne_nil_of_length_pos (hs.fits.rkLength ▸ hs.rounds_pos)

/-- Where an ENC or DEC accepted in s ends when the closed form gives h (R195, R196). -/
def ciphered (d : Dir) (s : State) (h : Halves) : State :=
  { s with cmdr := encode (commandOf d), v := h.l * s.p + h.r, l := h.l, r := h.r, f := h.f, t := h.t, rnd := s.cfg.rounds,
           done := true, phase := .idle }

/-- An ENC or DEC completes with the closed form's value where it has one (R151). -/
theorem engineRun_ciphered (hs : Invariant s) (hk : s.keyvalid = true) (hrun : cipherHalves d s.p s.rk s.v s.f s.t = some h) :
    engineRun (2 + 4 * s.cfg.rounds) (accepted d s) = .next (ciphered d s h) := by
  have hpos := hs.p_pos hk
  obtain ⟨hl, hr⟩ := cipherHalves_lt hpos hs.rk_ne_nil hrun
  have hfits : h.l * s.p + h.r < 2 ^ s.cfg.vw := (pair_lt_sq hl hr).trans hs.sq_lt_vw
  have hrounds : engineRun (4 * s.cfg.rounds) (atRound (accepted d s) (splitHalves s) 0 .f) =
      .next (atRound (accepted d s) h s.cfg.rounds .join) := by
    have hloop := engineRun_rounds (hs.cipherable hk d) (List.nil_append _).symm (keyOrder_ne_nil d hs.rk_ne_nil) hrun
    rwa [(hs.cipherable hk d).length_keyOrder] at hloop
  rw [show 2 + 4 * s.cfg.rounds = 4 * s.cfg.rounds + 1 + 1 by omega, engineRun_succ (engineStep_split d hpos),
    engineRun_add _ 1 hrounds, engineRun_succ (engineStep_join_fits (s := atRound (accepted d s) h s.cfg.rounds .join) rfl hfits)]
  rfl

/-- Where the closed form stops, the run comes to an F step whose right half has no inverse, before the rounds are over. -/
theorem engineRun_cipher_stop (hs : Cipherable d (accepted d s)) (hrun : cipherHalves d s.p s.rk s.v s.f s.t = none) :
    ∃ m n g, m < 1 + 4 * s.cfg.rounds ∧ n < s.cfg.rounds ∧ inv0 g.r s.p = none ∧
      engineRun m (accepted d s) = .next (atRound (accepted d s) g n .f) := by
  obtain ⟨m, n, g, hm, hn, hinv, hreach⟩ := engineRun_rounds_stop hs (List.nil_append _).symm hrun
  rw [hs.length_keyOrder] at hm
  exact ⟨m + 1, n, g, by rw [Nat.add_comm]; exact Nat.add_lt_add_left hm 1, hn, hinv,
    (engineRun_succ (engineStep_split d hs.pos)).trans hreach⟩

/-- Such a run ends in FAULT (R212) and stays there. -/
theorem engineRun_cipher_faults (hs : Cipherable d (accepted d s)) (hrun : cipherHalves d s.p s.rk s.v s.f s.t = none) :
    ∃ u, engineRun (2 + 4 * s.cfg.rounds) (accepted d s) = .next u ∧ u.phase = .fault := by
  obtain ⟨m, n, g, hm, -, hinv, hreach⟩ := engineRun_cipher_stop hs hrun
  obtain ⟨rest, hrest⟩ : ∃ rest, 2 + 4 * s.cfg.rounds = m + (rest + 1) := ⟨1 + 4 * s.cfg.rounds - m, by omega⟩
  have hfault : engineStep (atRound (accepted d s) g n .f) = .next (raise .notInvertible (atRound (accepted d s) g n .f)) :=
    engineStep_f_fault rfl hs.pos hinv
  refine ⟨raise .notInvertible (atRound (accepted d s) g n .f), ?_, raise_phase _ _⟩
  rw [hrest, engineRun_add _ _ hreach, engineRun_succ hfault]
  exact engineRun_not_busy rest rfl

/-- An ENC or DEC that has completed has done so with the closed form's value. -/
theorem ciphered_of_engineRun (hs : Invariant s) (hk : s.keyvalid = true)
    (hrun : engineRun (2 + 4 * s.cfg.rounds) (accepted d s) = .next u) (hu : u.phase = .idle) :
    ∃ h, cipherHalves d s.p s.rk s.v s.f s.t = some h ∧ u = ciphered d s h := by
  cases hc : cipherHalves d s.p s.rk s.v s.f s.t with
  | none =>
    obtain ⟨w, hw, hfault⟩ := engineRun_cipher_faults (hs.cipherable hk d) hc
    cases hrun.symm.trans hw
    simp [hfault] at hu
  | some h => exact ⟨h, rfl, by cases hrun.symm.trans (engineRun_ciphered hs hk hc); rfl⟩

/-! ## Purity and the round trip -/

/-- Settles O40: the closed form of V and the key is all that a completed run depends on, F and T being replaced in round 0. -/
theorem cipherDependsOnValueKeyAndDirectionOnly : Obligations.CipherDependsOnValueKeyAndDirectionOnly := by
  intro s1 s2 t1 t2 u1 d hs1 hs2 hi1 hi2 hk1 hk2 hcfg hv hp hrk hexec1 hexec2 hrun hu
  cases (exec_commandOf d hi1 hk1).symm.trans hexec1
  cases (exec_commandOf d hi2 hk2).symm.trans hexec2
  obtain ⟨h, hc1, rfl⟩ := ciphered_of_engineRun hs1 hk1 hrun hu
  have hc2 : cipherHalves d s2.p s2.rk s2.v s2.f s2.t = some h := by
    rw [← hp, ← hrk, ← hv, cipherHalves_congr hs1.rk_ne_nil _ _ s1.f s1.t, hc1]
  have hv2 : (ciphered d s2 h).v = (ciphered d s1 h).v := by simp [ciphered, hp]
  have hrnd2 : (ciphered d s2 h).rnd = (ciphered d s1 h).rnd := by simp [ciphered, hcfg]
  exact ⟨ciphered d s2 h, engineRun_ciphered hs2 hk2 hc2, rfl, hv2, rfl, rfl, rfl, rfl, hrnd2, rfl, rfl, rfl, rfl⟩

/-- The opposite command after a completed one gives the value back. -/
theorem engineRun_undoing (hs : Invariant s) (hi : s.phase = .idle) (hk : s.keyvalid = true) (hv : s.v < s.p ^ 2)
    (hc : cipherHalves d s.p s.rk s.v s.f s.t = some h) :
    ∃ g, engineRun (2 + 4 * s.cfg.rounds) (accepted (undoing d) (ciphered d s h)) = .next (ciphered (undoing d) (ciphered d s h) g) ∧
      (ciphered (undoing d) (ciphered d s h) g).v = s.v := by
  have haccepted : Invariant (accepted d s) := exec_keeps_invariant hs hi (exec_commandOf d hi hk)
  have hinv : Invariant (ciphered d s h) :=
    engineRun_keeps engineStep_keeps_invariant haccepted (engineRun_ciphered hs hk hc)
  obtain ⟨g, hback, hvalue⟩ := cipherHalves_undoing (hs.p_pos hk) hs.rk_ne_nil hv hc h.f h.t
  exact ⟨g, engineRun_ciphered (s := ciphered d s h) hinv hk hback, hvalue⟩

/-- Settles O41: a completed run ends with the closed form's value (`ciphered_of_engineRun`), from which the other direction's run gives V
back (`engineRun_undoing`); with a prime modulus the closed form always has a value, which is below P^2. -/
theorem encAndDecRoundTripBelowPSquared : Obligations.EncAndDecRoundTripBelowPSquared := by
  intro s d hs hi hk hv
  refine ⟨fun t u hexec hrun hu => ?_, fun hprime => ?_⟩
  · cases (exec_commandOf d hi hk).symm.trans hexec
    obtain ⟨h, hc, rfl⟩ := ciphered_of_engineRun hs hk hrun hu
    obtain ⟨g, hback, hvalue⟩ := engineRun_undoing hs hi hk hv hc
    exact ⟨_, _, exec_commandOf (undoing d) rfl hk, hback, rfl, rfl, hvalue⟩
  · obtain ⟨h, hc⟩ := cipherHalves_isSome_of_prime (d := d) (rk := s.rk) (v := s.v) (f := s.f) (t := s.t) hprime
    obtain ⟨hl, hr⟩ := cipherHalves_lt hprime.pos hs.rk_ne_nil hc
    exact ⟨_, _, exec_commandOf d hi hk, engineRun_ciphered hs hk hc, rfl, pair_lt_sq hl hr⟩

end Sys2Proof.Machine
end

section
/-! PROOFS. The pair codec (44_pair_codec.md): the steps SPLIT (R171) and JOIN (R173), the commands that run them (R170, R172, R175), and
that they undo each other (R174). -/

namespace Sys2Proof.Machine

variable {s : State} {i : Instr}

/-! ## Steps SPLIT and JOIN -/

theorem engineStep_split_completes (hp : s.phase = .split) (hpos : 0 < s.p) (hop : opcode s = opcOf .split) :
    engineStep s = .next { s with l := s.v / s.p, r := s.v % s.p, done := true, phase := .idle } := by
  rw [engineStep, hp]
  exact (if_neg hpos.ne').trans (if_pos hop)

theorem engineStep_split_enters_f (hp : s.phase = .split) (hpos : 0 < s.p) (hop : opcode s ≠ opcOf .split) :
    engineStep s = .next { s with l := s.v / s.p, r := s.v % s.p, phase := .f } := by
  rw [engineStep, hp]
  exact (if_neg hpos.ne').trans (if_neg hop)

theorem engineStep_join_overflows (hp : s.phase = .join) (hv : 2 ^ s.cfg.vw ≤ s.l * s.p + s.r) :
    engineStep s = .next (raise .valueOverflow s) := by
  rw [engineStep, hp]
  exact if_pos hv

/-- Settles O46: quotient and remainder have their property by `Nat.div_add_mod'`; the opcode chooses the end of the step. -/
theorem stepSplitDividesByP : Obligations.StepSplitDividesByP := by
  intro s hp hpos
  exact ⟨s.v / s.p, s.v % s.p, Nat.div_add_mod' s.v s.p, Nat.mod_lt _ hpos,
    engineStep_split_completes hp hpos, engineStep_split_enters_f hp hpos⟩

/-- Settles O47: the step compares the sum with 2^VW and looks at no opcode. -/
theorem stepJoinRebuildsTheValue : Obligations.StepJoinRebuildsTheValue := by
  intro s hp
  exact ⟨engineStep_join_overflows hp, engineStep_join_fits hp⟩

/-! ## The accept of a command that needs a key (R191) -/

theorem acceptKeyed_keyed (ph : Phase) (hi : s.phase = .idle) (hk : s.keyvalid = true) :
    acceptKeyed i ph s = start ph (noteCommand (encode i) s) :=
  (whenIdle_idle _ s hi).trans (if_pos hk)

theorem acceptKeyed_noKey (ph : Phase) (hi : s.phase = .idle) (hk : s.keyvalid = false) :
    acceptKeyed i ph s = raise .noKey (noteCommand (encode i) s) :=
  (whenIdle_idle _ s hi).trans (if_neg (by simp [hk]))

theorem exec_split_keyed (hi : s.phase = .idle) (hk : s.keyvalid = true) :
    exec .split s = .next (start .split (noteCommand (encode .split) s)) :=
  congrArg Host.Outcome.next (acceptKeyed_keyed .split hi hk)

theorem exec_join_keyed (hi : s.phase = .idle) (hk : s.keyvalid = true) :
    exec .join s = .next (start .join (noteCommand (encode .join) s)) :=
  congrArg Host.Outcome.next (acceptKeyed_keyed .join hi hk)

/-! ## The whole commands -/

/-- Where a SPLIT accepted in s ends (R170). -/
def afterSplit (s : State) : State :=
  { s with cmdr := encode .split, rnd := 0, done := true, l := s.v / s.p, r := s.v % s.p }

/-- Where a JOIN accepted in s ends when the value fits V (R172). -/
def afterJoin (s : State) : State :=
  { s with cmdr := encode .join, rnd := 0, done := true, v := s.l * s.p + s.r }

/-- SPLIT's accept and its one step. -/
theorem split_completes (hi : s.phase = .idle) (hk : s.keyvalid = true) (hpos : 0 < s.p) :
    ∃ t, exec .split s = .next t ∧ engineStep t = .next (afterSplit s) := by
  refine ⟨_, exec_split_keyed hi hk, ?_⟩
  rw [engineStep_split_completes (s := start .split (noteCommand (encode .split) s)) rfl hpos rfl, afterSplit, ← hi]
  rfl

/-- JOIN's accept and its one step, for a value that fits. -/
theorem join_completes (hi : s.phase = .idle) (hk : s.keyvalid = true) (hv : s.l * s.p + s.r < 2 ^ s.cfg.vw) :
    ∃ t, exec .join s = .next t ∧ engineStep t = .next (afterJoin s) := by
  refine ⟨_, exec_join_keyed hi hk, ?_⟩
  rw [engineStep_join_fits (s := start .join (noteCommand (encode .join) s)) rfl hv, afterJoin, ← hi]
  rfl

/-- Settles O44: accept and step are `split_completes`, and without a key the accept raises NoKey. -/
theorem splitCompletesWithQuotientAndRemainder : Obligations.SplitCompletesWithQuotientAndRemainder := by
  intro s hi
  refine ⟨fun hk hpos => ?_, fun hk => congrArg Host.Outcome.next (acceptKeyed_noKey .split hi hk)⟩
  obtain ⟨t, haccept, hstep⟩ := split_completes hi hk hpos
  exact ⟨t, s.v / s.p, s.v % s.p, haccept, Nat.div_add_mod' s.v s.p, Nat.mod_lt _ hpos, hstep⟩

/-- Settles O45: a value that fits completes by `join_completes`, one that does not raises ValueOverflow in the step, and without a key the
accept raises NoKey. -/
theorem joinCompletesOrOverflows : Obligations.JoinCompletesOrOverflows := by
  intro s hi
  refine ⟨join_completes hi, fun hk hv => ?_, fun hk => congrArg Host.Outcome.next (acceptKeyed_noKey .join hi hk)⟩
  exact ⟨_, exec_join_keyed hi hk, engineStep_join_overflows (start_phase _ _) hv⟩

/-! ## The two are inverse (R174) -/

theorem joined_split_eq (s : State) : (afterSplit s).l * (afterSplit s).p + (afterSplit s).r = s.v :=
  Nat.div_add_mod' s.v s.p

/-- A quotient that the right half still holds goes over to the left half. -/
theorem split_joined_l (hpos : 0 < s.p) : (afterSplit (afterJoin s)).l = s.l + s.r / s.p := by
  show (s.l * s.p + s.r) / s.p = s.l + s.r / s.p
  rw [Nat.mul_comm, Nat.mul_add_div hpos]

theorem split_joined_r (s : State) : (afterSplit (afterJoin s)).r = s.r % s.p :=
  Nat.mul_add_mod' s.l s.p s.r

/-- Settles O48: SPLIT then JOIN fits because the joined value is V itself, which has VW bits; JOIN then SPLIT divides L * P + R, which
gives the pair back when R is below P. -/
theorem splitAndJoinAreInverse : Obligations.SplitAndJoinAreInverse := by
  intro s hs hi hk
  have hpos := hs.p_pos hk
  constructor
  · have hfits : (afterSplit s).l * (afterSplit s).p + (afterSplit s).r < 2 ^ s.cfg.vw := joined_split_eq s ▸ hs.fits.v
    obtain ⟨t1, haccept1, hstep1⟩ := split_completes hi hk hpos
    obtain ⟨t3, haccept3, hstep3⟩ := join_completes (s := afterSplit s) hi hk hfits
    exact ⟨t1, afterSplit s, t3, afterJoin (afterSplit s), haccept1, hstep1, haccept3, hstep3, hi, joined_split_eq s⟩
  · intro hfits
    obtain ⟨t1, haccept1, hstep1⟩ := join_completes hi hk hfits
    obtain ⟨t3, haccept3, hstep3⟩ := split_completes (s := afterJoin s) hi hk hpos
    refine ⟨t1, afterJoin s, t3, afterSplit (afterJoin s), haccept1, hstep1, haccept3, hstep3, hi, split_joined_l hpos,
      split_joined_r s, fun hr => ⟨?_, ?_⟩⟩
    · rw [split_joined_l hpos, Nat.div_eq_of_lt hr, Nat.add_zero]
    · rw [split_joined_r, Nat.mod_eq_of_lt hr]

end Sys2Proof.Machine
end

section
/-! PROOFS. The command accept (45_command_dispatch.md): what a write to CMD in IDLE does, by the two fields of the byte (R60, R191). -/

namespace Sys2Proof.Machine

variable {s : State} {b : Byte} {i : Instr}

/-! ## The two fields of a command byte (R60) -/

theorem toNat_of_rsv_zero (hrsv : b.extractLsb' 4 4 = 0) : b.toNat = (b.extractLsb' 0 4).toNat := by
  revert b
  decide

theorem le_toNat_of_rsv_ne_zero (hrsv : b.extractLsb' 4 4 ≠ 0) : 16 ≤ b.toNat := by
  revert b
  decide

theorem encode_toNat (i : Instr) : (encode i).toNat = (opcOf i).toNat := by
  cases i <;> rfl

theorem eq_encode_of_fields (hrsv : b.extractLsb' 4 4 = 0) (hopc : (b.extractLsb' 0 4).toNat = (opcOf i).toNat) : b = encode i := by
  apply BitVec.eq_of_toNat_eq
  rw [toNat_of_rsv_zero hrsv, hopc, encode_toNat]

theorem exists_opcOf_eq {n : Nat} (hlow : 1 ≤ n) (hhigh : n ≤ 5) : ∃ i, (opcOf i).toNat = n := by
  interval_cases n
  exacts [⟨.genkey, rfl⟩, ⟨.enc, rfl⟩, ⟨.dec, rfl⟩, ⟨.split, rfl⟩, ⟨.join, rfl⟩]

theorem exists_command_of_fields (hrsv : b.extractLsb' 4 4 = 0) (hlow : 1 ≤ (b.extractLsb' 0 4).toNat)
    (hhigh : (b.extractLsb' 0 4).toNat ≤ 5) : ∃ i, b = encode i ∧ (b.extractLsb' 0 4).toNat = (opcOf i).toNat := by
  obtain ⟨i, hi⟩ := exists_opcOf_eq hlow hhigh
  exact ⟨i, eq_encode_of_fields hrsv hi.symm, hi.symm⟩

/-- The fields that R191 calls illegal are those of the 251 bytes of R62. -/
theorem decode_illegal_of_fields
    (hb : b.extractLsb' 4 4 ≠ 0 ∨ (b.extractLsb' 0 4).toNat = 0 ∨ 6 ≤ (b.extractLsb' 0 4).toNat) : ∃ e, decode b = .error e := by
  apply decode_illegal
  by_cases hrsv : b.extractLsb' 4 4 = 0
  · rw [toNat_of_rsv_zero hrsv]
    exact hb.resolve_left (not_not_intro hrsv)
  · have := le_toNat_of_rsv_ne_zero hrsv
    omega

/-! ## The accept (R191) -/

theorem step_writeCmd {v : Nat} {es : List Event} (hc : s.cfg.wf) (hi : s.phase = .idle) (he : s.events = .write 0x00 v :: es) :
    step s = writeCmd (cmdByte v) { s with events := es } :=
  (step_cons hc he).trans (hostWrite_cmd (s := { s with events := es }) v hi)

theorem writeCmd_encode (i : Instr) (s : State) : writeCmd (encode i) s = exec i s := by
  rw [writeCmd, decode_encode]

theorem exec_noKey (hne : i ≠ .genkey) (hi : s.phase = .idle) (hk : s.keyvalid = false) :
    exec i s = .next (raise .noKey (noteCommand (encode i) s)) := by
  cases i
  case genkey => exact absurd rfl hne
  all_goals exact congrArg Host.Outcome.next (acceptKeyed_noKey _ hi hk)

/-- ENC, DEC and SPLIT, the commands with an OPC from 2 to 4, all begin with step SPLIT. -/
theorem exec_keyed_to_split (hlow : 2 ≤ (opcOf i).toNat) (hhigh : (opcOf i).toNat ≤ 4) (hi : s.phase = .idle) (hk : s.keyvalid = true) :
    exec i s = .next (start .split (noteCommand (encode i) s)) := by
  cases i
  case genkey => exact absurd hlow (by decide)
  case join => exact absurd hhigh (by decide)
  all_goals exact congrArg Host.Outcome.next (acceptKeyed_keyed _ hi hk)

/-- Settles O49: the step is `writeCmd` of the byte; the fields decide whether the byte is a command and which one, and `exec` of that
command with or without a key is the state asked for. -/
theorem commandAcceptActsAsStated : Obligations.CommandAcceptActsAsStated := by
  intro s v es b hc hi he hb
  have hstep : step s = writeCmd b { s with events := es } := hb ▸ step_writeCmd hc hi he
  rw [hstep]
  refine ⟨fun hillegal => ?illegal, fun hrsv hlow hhigh hk => ?noKey, fun hrsv hopc => ?genkey,
    fun hrsv hlow hhigh hk => ?toSplit, fun hrsv hopc hk => ?join⟩
  case illegal =>
    obtain ⟨e, hd⟩ := decode_illegal_of_fields hillegal
    exact writeCmd_illegal hi hd
  case noKey =>
    obtain ⟨i, rfl, hopc⟩ := exists_command_of_fields hrsv (Nat.le_of_succ_le hlow) hhigh
    have hne : i ≠ .genkey := by
      rintro rfl
      exact absurd hlow (by decide)
    exact (writeCmd_encode i _).trans (exec_noKey hne hi hk)
  case genkey =>
    obtain rfl : b = encode .genkey := eq_encode_of_fields hrsv hopc
    exact (writeCmd_encode .genkey _).trans (exec_genkey_idle hi)
  case toSplit =>
    obtain ⟨i, rfl, hopc⟩ := exists_command_of_fields hrsv (Nat.le_of_succ_le hlow) (Nat.le_succ_of_le hhigh)
    rw [hopc] at hlow hhigh
    exact (writeCmd_encode i _).trans (exec_keyed_to_split hlow hhigh hi hk)
  case join =>
    obtain rfl : b = encode .join := eq_encode_of_fields hrsv hopc
    exact (writeCmd_encode .join _).trans (exec_join_keyed hi hk)

end Sys2Proof.Machine
end

section
/-! PROOFS. Exceptions (60_exceptions.md): which steps enter FAULT and what they write (R211, R216, R221), and that only reset leaves
FAULT (R222). -/

namespace Sys2Proof.Machine

variable {s t : State} {b : Byte} {x : Cause}

/-! ## The fault table (R211) -/

/-- The causes that an engine step raises, with the conditions of R212, R213, R217 and R218. -/
inductive EngineRaises (s : State) : Cause → Prop
  | notInvertible (hp : s.phase = .f) (hr : s.r ≠ 0) (hgcd : Nat.gcd s.r s.p ≠ 1) : EngineRaises s .notInvertible
  | invalidModulus (hp : s.phase = .gCheck) (heven : s.p = 0 ∨ s.p % 2 = 0) : EngineRaises s .invalidModulus
  | valueOverflow (hp : s.phase = .join) (hc : s.cmdr = encode .join) (hv : 2 ^ s.cfg.vw ≤ s.l * s.p + s.r) :
      EngineRaises s .valueOverflow
  | seedOverflow (hp : s.phase = .gDraw ∨ s.phase = .gKey) (hm : s.seed = 2 ^ s.cfg.seedBits - 1) : EngineRaises s .seedOverflow

/-- The causes that the accept of a byte raises, with the conditions of R214 and R215. -/
inductive AcceptRaises (s : State) (b : Byte) : Cause → Prop
  | illegalCommand (hb : ¬ (1 ≤ b.toNat ∧ b.toNat ≤ 5)) : AcceptRaises s b .illegalCommand
  | noKey (hlow : 2 ≤ b.toNat) (hhigh : b.toNat ≤ 5) (hk : s.keyvalid = false) : AcceptRaises s b .noKey

/-- The pending events are no part of a fault's conditions. -/
theorem EngineRaises.of_events {es : List Event} (h : EngineRaises { s with events := es } x) : EngineRaises s x := by
  cases h with
  | notInvertible hp hr hgcd => exact .notInvertible hp hr hgcd
  | invalidModulus hp heven => exact .invalidModulus hp heven
  | valueOverflow hp hc hv => exact .valueOverflow hp hc hv
  | seedOverflow hp hm => exact .seedOverflow hp hm

theorem AcceptRaises.of_events {es : List Event} (h : AcceptRaises { s with events := es } b x) : AcceptRaises s b x := by
  cases h with
  | illegalCommand hb => exact .illegalCommand hb
  | noKey hlow hhigh hk => exact .noKey hlow hhigh hk

theorem EngineRaises.code_cases (h : EngineRaises s x) :
    x.code = 1 ∧ s.phase = .f ∧ s.r ≠ 0 ∧ Nat.gcd s.r s.p ≠ 1 ∨
    x.code = 2 ∧ s.phase = .gCheck ∧ (s.p = 0 ∨ s.p % 2 = 0) ∨
    x.code = 5 ∧ s.phase = .join ∧ s.cmdr = 0x05 ∧ 2 ^ s.cfg.vw ≤ s.l * s.p + s.r ∨
    x.code = 6 ∧ (s.phase = .gDraw ∨ s.phase = .gKey) ∧ s.seed = 2 ^ s.cfg.seedBits - 1 := by
  cases h with
  | notInvertible hp hr hgcd => exact .inl ⟨rfl, hp, hr, hgcd⟩
  | invalidModulus hp heven => exact .inr (.inl ⟨rfl, hp, heven⟩)
  | valueOverflow hp hc hv => exact .inr (.inr (.inl ⟨rfl, hp, hc, hv⟩))
  | seedOverflow hp hm => exact .inr (.inr (.inr ⟨rfl, hp, hm⟩))

theorem AcceptRaises.code_cases (h : AcceptRaises s b x) :
    x.code = 3 ∧ ¬ (1 ≤ b.toNat ∧ b.toNat ≤ 5) ∨ x.code = 4 ∧ 2 ≤ b.toNat ∧ b.toNat ≤ 5 ∧ s.keyvalid = false := by
  cases h with
  | illegalCommand hb => exact .inl ⟨rfl, hb⟩
  | noKey hlow hhigh hk => exact .inr ⟨rfl, hlow, hhigh, hk⟩

/-! ## Fault entry by the engine -/

/-- The JOIN of an ENC or DEC fits V (R149), so a value that does not fit is the JOIN command's (R217). -/
theorem Invariant.cmdr_of_join_overflow (hs : Invariant s) (hp : s.phase = .join) (hv : 2 ^ s.cfg.vw ≤ s.l * s.p + s.r) :
    s.cmdr = encode .join := by
  have h := hs.phase
  simp only [PhaseFacts, hp] at h
  obtain ⟨-, ⟨-, -, hl, hr⟩ | ⟨hjoin, -⟩⟩ := h
  · have hfits := (pair_lt_sq hl hr).trans hs.sq_lt_vw
    exact absurd hv (Nat.not_le.2 hfits)
  · exact hjoin

theorem engineStep_enters_fault (hs : Invariant s) (h : engineStep s = .next t) (hne : s.phase ≠ .fault) (hf : t.phase = .fault) :
    ∃ x, EngineRaises s x ∧ t = raise x s := by
  unfold engineStep at h
  cases hp : s.phase <;> simp only [hp] at h
  case idle => cases h; simp [hp] at hf
  case fault => exact absurd hp hne
  case gDraw =>
    obtain ⟨hm, ht⟩ | ⟨-, rfl⟩ := stepGDraw_cases h
    · exact ⟨_, .seedOverflow (.inl hp) hm, ht⟩
    · cases hf
  case gTest => obtain ⟨-, rfl⟩ | ⟨-, rfl⟩ := stepGTest_cases h <;> cases hf
  case gCheck =>
    obtain ⟨heven, ht⟩ | ⟨-, -, rfl⟩ := stepGCheck_cases h
    · exact ⟨_, .invalidModulus hp heven, ht⟩
    · cases hf
  case gKey =>
    obtain ⟨-, -, ⟨hm, ht⟩ | ⟨-, -, rfl⟩ | ⟨-, -, rfl⟩⟩ := stepGKey_cases h
    · exact ⟨_, .seedOverflow (.inr hp) hm, ht⟩
    · cases hf
    · cases hf
  case split => obtain ⟨-, ⟨-, rfl⟩ | ⟨-, rfl⟩⟩ := stepSplit_cases h <;> cases hf
  case f =>
    obtain ⟨-, rfl⟩ | ⟨-, -, -, rfl⟩ | ⟨hr, -, hgcd, ht⟩ := stepF_cases h
    · cases hf
    · cases hf
    · exact ⟨_, .notInvertible hp hr hgcd, ht⟩
  case t => obtain ⟨-, d, k, -, -, rfl⟩ := stepT_cases h; cases hf
  case acc => obtain ⟨-, d, -, rfl⟩ := stepAcc_cases h; cases hf
  case swap => obtain ⟨-, rfl⟩ | ⟨-, -, rfl⟩ := stepSwap_cases h <;> cases hf
  case join =>
    obtain ⟨hv, ht⟩ | ⟨-, rfl⟩ := stepJoin_cases h
    · exact ⟨_, .valueOverflow hp (hs.cmdr_of_join_overflow hp hv) hv, ht⟩
    · cases hf

/-! ## Fault entry by the host -/

/-- The converse of `decode_illegal`: each of the bytes 1 to 5 is a command (R62). -/
theorem not_legal_of_decode_error {e : DecodeError} (h : decode b = .error e) : ¬ (1 ≤ b.toNat ∧ b.toNat ≤ 5) := by
  rintro ⟨hlow, hhigh⟩
  obtain ⟨i, hi⟩ := exists_opcOf_eq hlow hhigh
  obtain rfl : encode i = b := BitVec.eq_of_toNat_eq ((encode_toNat i).trans hi)
  rw [decode_encode] at h
  cases h

theorem writeCmd_enters_fault (hi : s.phase = .idle) (h : writeCmd b s = .next t) (hf : t.phase = .fault) :
    ∃ x, AcceptRaises s b x ∧ t = raise x (noteCommand b s) := by
  obtain ⟨⟨e, hd⟩, ht⟩ | ⟨-, rfl⟩ | ⟨-, -, rfl⟩ | ⟨-, -, rfl⟩ | ⟨hb, hk, ht⟩ := writeCmd_cases b hi h
  · exact ⟨_, .illegalCommand (not_legal_of_decode_error hd), ht⟩
  · cases hf
  · cases hf
  · cases hf
  · have hrange : 2 ≤ b.toNat ∧ b.toNat ≤ 5 := by rcases hb with rfl | rfl | rfl | rfl <;> decide
    exact ⟨_, .noKey hrange.1 hrange.2 hk, ht⟩

/-- A host write enters FAULT by the accept only. -/
theorem hostWrite_enters_fault {idx : Byte} {v : Nat} (h : hostWrite idx v s = .next t) (hne : s.phase ≠ .fault)
    (hf : t.phase = .fault) :
    s.phase = .idle ∧ idx = 0x00 ∧ ∃ x, AcceptRaises s (cmdByte v) x ∧ t = raise x (noteCommand (cmdByte v) s) := by
  rcases hostWrite_cases h with rfl | ⟨hi, ⟨hidx, hcmd⟩ | ⟨-, rfl⟩ | ⟨-, rfl⟩ | ⟨-, rfl⟩ | ⟨-, rfl⟩⟩
  · exact absurd hf hne
  · exact ⟨hi, hidx, writeCmd_enters_fault hi hcmd hf⟩
  all_goals exact absurd hf hne

/-! ## Fault entry is precise (R216, R221) -/

theorem withTail_of_nil (he : s.events = []) : { s with events := s.events.tail } = s := by
  cases s
  cases he
  rfl

theorem step_enters_fault (hs : Invariant s) (h : step s = .next t) (hne : s.phase ≠ .fault) (hf : t.phase = .fault) :
    (EngineTurn s ∧ ∃ x, EngineRaises s x ∧ t = raise x { s with events := s.events.tail }) ∨
    ∃ b, AcceptsByte s b ∧ ∃ x, AcceptRaises s b x ∧ t = raise x (noteCommand b { s with events := s.events.tail }) := by
  obtain ⟨-, ⟨he, hstep⟩ | ⟨e, es, he, hrun⟩⟩ := step_cases h
  · rw [withTail_of_nil he]
    exact .inl ⟨.inl he, engineStep_enters_fault hs hstep hne hf⟩
  rw [he, List.tail_cons]
  have hs1 : Invariant { s with events := es } := hs.of_hardware_eq rfl
  cases e with
  | read idx => cases hrun; exact absurd hf hne
  | write idx v =>
    obtain ⟨hi, rfl, x, raises, ht⟩ := hostWrite_enters_fault hrun hne hf
    exact .inr ⟨cmdByte v, ⟨hi, v, es, he, rfl⟩, x, raises.of_events, ht⟩
  | reset => cases hrun; cases hf
  | engine =>
    obtain ⟨x, raises, ht⟩ := engineStep_enters_fault hs1 hrun hne hf
    exact .inl ⟨.inr ⟨es, he⟩, x, raises.of_events, ht⟩
  | wait =>
    cases hrun
    have hphase := congrArg State.phase (hardware_hostWait { s with events := es })
    exact absurd (hphase.symm.trans hf) hne

/-- In FAULT the bits 0, 1 and 3 of STATUS are fixed (R216); DONE is 0 by the invariant. -/
theorem Invariant.status_of_fault (ht : Invariant t) (hf : t.phase = .fault) :
    (status t).getLsbD 0 = false ∧ (status t).getLsbD 1 = false ∧ (status t).getLsbD 2 = t.keyvalid ∧ (status t).getLsbD 3 = true ∧
      (status t).extractLsb' 4 4 = t.err := by
  obtain ⟨hbusy, hdone, hkey, hfault, herr⟩ := status_bits t
  have not_busy : busy t = false := by simp [busy, hf]
  exact ⟨hbusy.trans not_busy, hdone.trans (ht.not_done (by simp [hf])), hkey, hfault.trans (faulted_iff.2 hf), herr⟩

/-- Settles O53: `step_enters_fault` gives the cause and the whole next state; STATUS is read off a state in FAULT with the invariant. -/
theorem faultEntryIsPrecise : Obligations.FaultEntryIsPrecise := by
  intro s t hs h hne hf
  have hstatus := (step_keeps_invariant hs h).status_of_fault hf
  obtain ⟨turn, x, raises, rfl⟩ | ⟨b, accept, x, raises, rfl⟩ := step_enters_fault hs h hne hf
  · exact ⟨.inl ⟨turn, rfl, raises.code_cases⟩, hstatus⟩
  · exact ⟨.inr ⟨b, accept, rfl, raises.code_cases⟩, hstatus⟩

/-! ## FAULT is left by reset only (R222) -/

theorem runEvent_in_fault {e : Event} (hp : s.phase = .fault) (hreset : e ≠ .reset) :
    ∃ t, runEvent e s = .next t ∧ hardware t = hardware s := by
  cases e with
  | read idx => exact ⟨_, rfl, rfl⟩
  | write idx v => exact ⟨s, hostWrite_not_idle v (by simp [hp]), rfl⟩
  | reset => exact absurd rfl hreset
  | engine => exact ⟨s, engineStep_not_busy s (by simp [busy, hp]), rfl⟩
  | wait => exact ⟨_, rfl, hardware_hostWait s⟩

/-- Settles O54, by the event of the step: in FAULT the engine has no step and every host access leaves the hardware; a reset leaves
nothing of it. -/
theorem faultIsStickyUntilReset : Obligations.FaultIsStickyUntilReset := by
  intro s hc hp
  refine ⟨fun hreset => ?_, fun hreset => ?_⟩
  · cases he : s.events with
    | nil => exact ⟨s, (step_nil hc he).trans (engineStep_not_busy s (by simp [busy, hp])), rfl⟩
    | cons e es =>
      have hne : e ≠ .reset := by
        rintro rfl
        simp [he] at hreset
      obtain ⟨t, hrun, ht⟩ := runEvent_in_fault (s := { s with events := es }) hp hne
      exact ⟨t, (step_cons hc he).trans hrun, ht⟩
  · obtain ⟨es, he⟩ := List.head?_eq_some_iff.1 hreset
    exact ⟨_, step_cons hc he, rfl⟩

end Sys2Proof.Machine
end

section
/-! PROOFS. Steps and parameters (00_scope.md, 10_state.md, 70_reset_and_hazards.md): the reset event (R240), what every step keeps (R9 and
the invariant), that no step is stuck (R193), the phases (R192) and SEED (R22) under the engine. -/

namespace Sys2Proof.Machine

variable {s t : State}

/-! ## Reset, the parameters and the invariant -/

/-- Settles O3: the step is the reset event, in the state that holds the later events. -/
theorem resetEventReplacesTheWholeState : Obligations.ResetEventReplacesTheWholeState := by
  intro s es hc he
  exact ⟨_, step_cons hc he, rfl, rfl, rfl⟩

/-- Settles O4: the invariant does not see the pending events, and the reference configuration is well formed. -/
theorem invariantHoldsAtReset : Obligations.InvariantHoldsAtReset :=
  ⟨fun _ _ hc => (invariant_resetOf hc).of_hardware_eq rfl, invariant_resetOf (by decide)⟩

/-- Settles O1: a reset gives the reset state of the same parameters, and no row of R30 writes a parameter. -/
theorem noStepChangesABuildParameter : Obligations.NoStepChangesABuildParameter :=
  fun _ _ => step_cfg

/-- Settles O5, by the event of the step and for the engine's by its phase: `step_keeps_invariant`. -/
theorem everyStepKeepsTheInvariant : Obligations.EveryStepKeepsTheInvariant :=
  fun _ _ => step_keeps_invariant

/-! ## No step is stuck (R193) -/

theorem InRound.rnd_lt (h : InRound s) : s.rnd < s.cfg.rounds := by
  obtain ⟨-, -, hrnd, -⟩ := h
  exact hrnd

theorem InRound.exists_direction (h : InRound s) : ∃ d, direction s = some d := by
  obtain ⟨-, henc | hdec, -⟩ := h
  · exact ⟨.enc, direction_of_cmdr henc⟩
  · exact ⟨.dec, direction_of_cmdr hdec⟩

theorem Invariant.stepGKey_next (hs : Invariant s) (hp : s.phase = .gKey) : ∃ t, stepGKey s = .next t := by
  obtain ⟨-, hrnd, good, -⟩ : InGenkey s ∧ s.rnd < s.cfg.rounds ∧ GoodModulus s ∧ ∀ k ∈ s.rk.take s.rnd, k < s.p := by
    simpa only [PhaseFacts, hp] using hs.phase
  by_cases hm : s.seed = 2 ^ s.cfg.seedBits - 1
  · exact ⟨_, stepGKey_at_max good.pos hrnd hm⟩
  · rw [stepGKey_below_max good.pos hrnd hm]
    split
    · exact ⟨_, rfl⟩
    · exact ⟨_, rfl⟩

/-- The stops of the model (a modulus 0, a round out of range, no direction, a half too wide) are shut out by the phase's facts. -/
theorem Invariant.engineStep_next (hs : Invariant s) : ∃ t, engineStep s = .next t := by
  have round_pos (hr : InRound s) : 0 < s.p := hs.p_pos hr.1
  cases hp : s.phase with
  | idle => exact ⟨s, engineStep_not_busy s (by simp [busy, hp])⟩
  | fault => exact ⟨s, engineStep_not_busy s (by simp [busy, hp])⟩
  | gDraw =>
    rw [engineStep_gDraw hp]
    by_cases hm : s.seed = 2 ^ s.cfg.seedBits - 1
    · exact ⟨_, stepGDraw_at_max hm⟩
    · exact ⟨_, stepGDraw_below_max hm⟩
  | gTest => exact ⟨_, engineStep_gTest hp⟩
  | gCheck =>
    rw [engineStep_gCheck hp]
    by_cases hodd : s.p % 2 = 1
    · exact ⟨_, stepGCheck_passes hodd⟩
    · exact ⟨_, stepGCheck_rejects (.inr (by omega))⟩
  | gKey => rw [engineStep_gKey hp]; exact hs.stepGKey_next hp
  | split =>
    have hphase := hs.phase
    simp only [PhaseFacts, hp] at hphase
    by_cases hop : opcode s = opcOf .split
    · exact ⟨_, engineStep_split_completes hp (hs.p_pos hphase.1) hop⟩
    · exact ⟨_, engineStep_split_enters_f hp (hs.p_pos hphase.1) hop⟩
  | f =>
    have hpos := round_pos (hs.inRound (by simp [hp]))
    cases hinv : inv0 s.r s.p with
    | none => exact ⟨_, engineStep_f_fault hp hpos hinv⟩
    | some f => exact ⟨_, engineStep_f hp hpos hinv⟩
  | t =>
    have round := hs.inRound (by simp [hp])
    obtain ⟨d, hd⟩ := round.exists_direction
    exact ⟨_, engineStep_t hp (round_pos round) hd (roundKey_eq_getD d round.rnd_lt hs.fits.rkLength)⟩
  | acc =>
    have round := hs.inRound (by simp [hp])
    obtain ⟨d, hd⟩ := round.exists_direction
    exact ⟨_, engineStep_acc hp (round_pos round) hd⟩
  | swap =>
    have hrnd := (hs.inRound (by simp [hp])).rnd_lt
    have hfits : s.l < 2 ^ s.cfg.w := (hs.l_lt_of_swap hp).trans hs.fits.p
    obtain hmore | hlast := Nat.lt_or_eq_of_le (Nat.succ_le_of_lt hrnd)
    · exact ⟨_, engineStep_swap_more hp hmore hfits⟩
    · exact ⟨_, engineStep_swap_last hp hlast⟩
  | join =>
    by_cases hv : 2 ^ s.cfg.vw ≤ s.l * s.p + s.r
    · exact ⟨_, engineStep_join_overflows hp hv⟩
    · exact ⟨_, engineStep_join_fits hp (Nat.not_le.1 hv)⟩

theorem exec_next (i : Instr) (s : State) : ∃ t, exec i s = .next t := by
  cases i <;> exact ⟨_, rfl⟩

theorem writeCmd_next (b : Byte) (s : State) : ∃ t, writeCmd b s = .next t := by
  cases hd : decode b with
  | ok i => rw [decode_eq_ok_iff.1 hd, writeCmd_encode]; exact exec_next i s
  | error e => exact ⟨acceptIllegal b s, by rw [writeCmd, hd]⟩

theorem hostWrite_next (idx : Byte) (v : Nat) (s : State) : ∃ t, hostWrite idx v s = .next t := by
  by_cases hp : s.phase = .idle
  · cases hreg : regOf s.cfg idx with
    | none => exact ⟨s, hostWrite_reserved v hreg⟩
    | some x =>
      by_cases hx : x = .cmd
      · obtain ⟨rfl, -⟩ := eq_indexOf_of_regOf hreg
        rw [hx, hostWrite_cmd v hp]
        exact writeCmd_next (cmdByte v) s
      · exact ⟨_, hostWrite_named v hp hreg hx⟩
  · exact ⟨s, hostWrite_not_idle v hp⟩

theorem Invariant.runEvent_next (hs : Invariant s) (e : Event) : ∃ t, runEvent e s = .next t := by
  cases e with
  | read idx => exact ⟨_, rfl⟩
  | write idx v => exact hostWrite_next idx v s
  | reset => exact ⟨_, rfl⟩
  | engine => exact hs.engineStep_next
  | wait => exact ⟨_, rfl⟩

/-- Settles O6: the host's events always have a next state, and under the invariant the engine's step has one. -/
theorem noStepIsStuck : Obligations.NoStepIsStuck := by
  intro s hs
  cases he : s.events with
  | nil => rw [step_nil hs.cfg he]; exact hs.engineStep_next
  | cons e es =>
    have hs1 : Invariant { s with events := es } := hs.of_hardware_eq rfl
    rw [step_cons hs.cfg he]
    exact hs1.runEvent_next e

/-! ## The phases under the engine (R192) -/

/-- Settles O52, by the phase: each step's possible next states have the phases of its row. -/
theorem phaseTransitionsAreTheTabledOnes : Obligations.PhaseTransitionsAreTheTabledOnes := by
  intro s t h
  unfold engineStep at h
  cases hp : s.phase <;> simp only [hp] at h
  case idle => cases h; simp [hp]
  case fault => cases h; simp [hp]
  case gDraw => obtain ⟨-, rfl⟩ | ⟨-, rfl⟩ := stepGDraw_cases h <;> simp
  case gTest => obtain ⟨-, rfl⟩ | ⟨-, rfl⟩ := stepGTest_cases h <;> simp
  case gCheck => obtain ⟨-, rfl⟩ | ⟨-, -, rfl⟩ := stepGCheck_cases h <;> simp
  case gKey => obtain ⟨-, -, ⟨-, rfl⟩ | ⟨-, -, rfl⟩ | ⟨-, -, rfl⟩⟩ := stepGKey_cases h <;> simp
  case split => obtain ⟨-, ⟨-, rfl⟩ | ⟨-, rfl⟩⟩ := stepSplit_cases h <;> simp
  case f => obtain ⟨-, rfl⟩ | ⟨-, -, -, rfl⟩ | ⟨-, -, -, rfl⟩ := stepF_cases h <;> simp
  case t => obtain ⟨-, d, k, -, -, rfl⟩ := stepT_cases h; simp
  case acc => obtain ⟨-, d, -, rfl⟩ := stepAcc_cases h; simp
  case swap => obtain ⟨-, rfl⟩ | ⟨-, -, rfl⟩ := stepSwap_cases h <;> simp
  case join => obtain ⟨-, rfl⟩ | ⟨-, rfl⟩ := stepJoin_cases h <;> simp

/-! ## SEED under the engine (R22, R88) -/

/-- What a step that draws does to SEED. -/
theorem engineStep_seed_of_draw (hp : s.phase = .gDraw ∨ s.phase = .gKey) (h : engineStep s = .next t) :
    s.seed = 2 ^ s.cfg.seedBits - 1 ∧ t.seed = s.seed ∨ s.seed ≠ 2 ^ s.cfg.seedBits - 1 ∧ t.seed = s.seed + 1 := by
  rcases hp with hp | hp
  · rw [engineStep_gDraw hp] at h
    obtain ⟨hm, rfl⟩ | ⟨hm, rfl⟩ := stepGDraw_cases h
    · exact .inl ⟨hm, rfl⟩
    · exact .inr ⟨hm, rfl⟩
  · rw [engineStep_gKey hp] at h
    obtain ⟨-, -, ⟨hm, rfl⟩ | ⟨hm, -, rfl⟩ | ⟨hm, -, rfl⟩⟩ := stepGKey_cases h
    · exact .inl ⟨hm, rfl⟩
    · exact .inr ⟨hm, rfl⟩
    · exact .inr ⟨hm, rfl⟩

/-- Settles O10: only G_DRAW and G_KEY write SEED (`engineStep_frame`), and these draw (`engineStep_seed_of_draw`). -/
theorem seedAdvancesByOnePerDraw : Obligations.SeedAdvancesByOnePerDraw := by
  intro s t h hfits
  by_cases hp : s.phase = .gDraw ∨ s.phase = .gKey
  · obtain ⟨hm, ht⟩ | ⟨hm, ht⟩ := engineStep_seed_of_draw hp h
    · exact ⟨ht ▸ hfits, fun hdraw => absurd hm hdraw.2, fun _ => ht⟩
    · exact ⟨by omega, fun _ => ht, fun hkeep => (hkeep.elim (absurd hp) hm).elim⟩
  · have ht : t.seed = s.seed := (engineStep_frame h).seed.resolve_right hp
    exact ⟨ht ▸ hfits, fun hdraw => absurd hdraw.1 hp, fun _ => ht⟩

end Sys2Proof.Machine
end

section
/-! PROOFS. The host's side (20_memory.md, 30_encoding.md, 40_collaborators.md): the byte of a command (R62), a step that writes it, the frame
of the accept (R191), accesses while busy (R45), a read after a write, and the ranges of the draws (R86, R87). -/

namespace Sys2Proof.Machine

variable {s t : State} {i : Instr}

/-! ## The byte of a command (R62) -/

/-- Settles O12: the bytes of the map are the encodings, which the decoder inverts. -/
theorem tabledWordsDecodeAndEncode : Obligations.TabledWordsDecodeAndEncode :=
  ⟨decode_encode .genkey, decode_encode .enc, decode_encode .dec, decode_encode .split, decode_encode .join, rfl, rfl, rfl, rfl, rfl⟩

/-- Settles O13: a byte decodes to the command of which it is the encoding, and to no other. -/
theorem decodeInvertsEncode : Obligations.DecodeInvertsEncode := fun _ _ => decode_eq_ok_iff

/-! ## The meaning of a command -/

theorem exec_not_idle (i : Instr) (hp : s.phase ≠ .idle) : exec i s = .next s := by
  cases i <;> exact congrArg Host.Outcome.next (whenIdle_not_idle _ s hp)

/-- Settles O50: every accept acts in IDLE only. -/
theorem commandsAreDroppedOutsideIdle : Obligations.CommandsAreDroppedOutsideIdle := fun i _ => exec_not_idle i

/-- Settles O14: in IDLE the write to CMD is the command of the byte, outside IDLE the write and the command are both dropped. -/
theorem stepRunsTheDecodedCommand : Obligations.StepRunsTheDecodedCommand := by
  intro s i v es hc he hd
  by_cases hp : s.phase = .idle
  · have hb : cmdByte v = encode i := decode_eq_ok_iff.1 hd
    rw [step_writeCmd hc hp he, hb, writeCmd_encode]
  · rw [step_cons hc he, exec_not_idle (s := { s with events := es }) i hp]
    exact hostWrite_not_idle (idx := 0x00) v hp

/-- What the accept of a command leads to: it is dropped, is refused for want of a key, starts with the key as it is, or is a GENKEY, which
destroys the key (R121, R190, R191, R215). -/
inductive AcceptOutcome (i : Instr) (s : State) : State → Prop
  | dropped : AcceptOutcome i s s
  | noKey : AcceptOutcome i s (raise .noKey (noteCommand (encode i) s))
  | started (ph : Phase) : AcceptOutcome i s (start ph (noteCommand (encode i) s))
  | genkey (hi : i = .genkey) : AcceptOutcome i s (start .gDraw (destroyKey (noteCommand (encode i) s)))

theorem acceptKeyed_outcome (i : Instr) (ph : Phase) (s : State) : AcceptOutcome i s (acceptKeyed i ph s) := by
  obtain ⟨-, h⟩ | ⟨-, -, h⟩ | ⟨-, -, h⟩ := acceptKeyed_cases i ph s
  · rw [h]; exact .dropped
  · rw [h]; exact .started ph
  · rw [h]; exact .noKey

theorem acceptGenkey_outcome (s : State) : AcceptOutcome .genkey s (acceptGenkey s) := by
  obtain ⟨-, h⟩ | ⟨-, h⟩ := acceptGenkey_cases s
  · rw [h]; exact .dropped
  · rw [h]; exact .genkey rfl

theorem exec_outcome (h : exec i s = .next t) : AcceptOutcome i s t := by
  cases i with
  | genkey => cases h; exact acceptGenkey_outcome s
  | enc => cases h; exact acceptKeyed_outcome .enc .split s
  | dec => cases h; exact acceptKeyed_outcome .dec .split s
  | split => cases h; exact acceptKeyed_outcome .split .split s
  | join => cases h; exact acceptKeyed_outcome .join .join s

/-- Settles O51: in each of the four outcomes the registers are read off the updates that make the next state. -/
theorem acceptLeavesEverythingElseUnchanged : Obligations.AcceptLeavesEverythingElseUnchanged := by
  intro i s t h
  cases exec_outcome h with
  | dropped => simp
  | noKey => simp
  | started ph => simp
  | genkey hi => simp [hi]

/-! ## Accesses while busy (R45) -/

theorem status_mod_two (s : State) : (status s).toNat % 2 = 1 ↔ busy s = true := by
  obtain ⟨hbusy, -⟩ := status_bits s
  rw [← hbusy, BitVec.getLsbD, Nat.testBit_zero, decide_eq_true_iff]

/-- Settles O17: outside IDLE a write is dropped, a read writes the host's side only, and STATUS is read as it is. -/
theorem busyEngineIsUndisturbed : Obligations.BusyEngineIsUndisturbed := by
  intro s idx v es hc hb
  refine ⟨fun he => ?_, fun he => ⟨_, step_cons hc he, rfl, rfl, _, rfl, ?_⟩⟩
  · rw [step_cons hc he]
    exact hostWrite_not_idle v (busy_iff.1 hb).1
  · rintro rfl
    exact ⟨rfl, (status_mod_two s).2 hb⟩

/-! ## A read after a write (20_memory.md section 6) -/

/-- The registers that take a value from the host (R43). -/
def IsOperand (x : Reg) : Prop := x = .seed ∨ x = .v ∨ x = .l ∨ x = .r

theorem IsOperand.ne_cmd {x : Reg} (hx : IsOperand x) : x ≠ .cmd := by
  rcases hx with rfl | rfl | rfl | rfl <;> nofun

theorem IsOperand.regOf_indexOf {x : Reg} (hx : IsOperand x) (c : Config) : regOf c (indexOf x) = some x := by
  rcases hx with rfl | rfl | rfl | rfl <;> rfl

theorem IsOperand.indexOf_ne_status {x : Reg} (hx : IsOperand x) : indexOf x ≠ indexOf .status := by
  rcases hx with rfl | rfl | rfl | rfl <;> decide

theorem regValue_writeOperand {x : Reg} (hx : IsOperand x) (v : Nat) (s : State) :
    regValue (writeOperand s x v) x = v % 2 ^ regWidth s.cfg x := by
  rcases hx with rfl | rfl | rfl | rfl <;> rfl

@[simp] theorem writeOperand_cfg (s : State) (x : Reg) (v : Nat) : (writeOperand s x v).cfg = s.cfg := by
  cases x <;> rfl

@[simp] theorem writeOperand_phase (s : State) (x : Reg) (v : Nat) : (writeOperand s x v).phase = s.phase := by
  cases x <;> rfl

@[simp] theorem writeOperand_reads (s : State) (x : Reg) (v : Nat) : (writeOperand s x v).reads = s.reads := by
  cases x <;> rfl

/-- A write by value and the pending events are independent. -/
theorem writeOperand_withOutside (s : State) (x : Reg) (v : Nat) (es : List Event) (rs : List Nat) (n : Nat) :
    writeOperand (withOutside s es rs n) x v = withOutside (writeOperand s x v) es rs n := by
  cases x <;> rfl

/-- In IDLE a read of an operand register's index gives the register. -/
theorem hostRead_operand {x : Reg} (hx : IsOperand x) (hp : s.phase = .idle) :
    hostRead (indexOf x) s = { s with reads := regValue s x :: s.reads } := by
  rw [hostRead_not_busy (by simp [busy, hp]) hx.indexOf_ne_status, indexValue_named (hx.regOf_indexOf s.cfg)]

theorem step_withOutside {e : Event} {rs : List Nat} {n : Nat} (hc : s.cfg.wf) (es : List Event) :
    step (withOutside s (e :: es) rs n) = runEvent e (withOutside s es rs n) :=
  step_cons (s := withOutside s (e :: es) rs n) hc rfl

theorem coreRun_succ {n : Nat} (h : step s = .next t) :
    Host.Core.run Sys2Proof.core (n + 1) s = Host.Core.run Sys2Proof.core n t := by
  have hcore : Sys2Proof.core.step s = .next t := h
  simp only [Host.Core.run, hcore]

/-- Settles O18: the write leaves the truncated value in the register (`regValue_writeOperand`) and the phase IDLE, in which the read of
its index gives the register (`hostRead_operand`). -/
theorem readAfterWriteReturnsTheTruncatedValue : Obligations.ReadAfterWriteReturnsTheTruncatedValue := by
  intro s x v es hc hp hx he
  have operand : IsOperand x := hx
  have hwrite : step s = .next (withOutside (writeOperand s x v) (.read (indexOf x) :: es) s.reads s.busyReads) := by
    rw [← writeOperand_withOutside]
    exact (step_cons hc he).trans (hostWrite_named v hp (operand.regOf_indexOf s.cfg) operand.ne_cmd)
  have hidle : (withOutside (writeOperand s x v) es s.reads s.busyReads).phase = .idle := (writeOperand_phase s x v).trans hp
  have hread : step (withOutside (writeOperand s x v) (.read (indexOf x) :: es) s.reads s.busyReads) =
      .next (hostRead (indexOf x) (withOutside (writeOperand s x v) es s.reads s.busyReads)) :=
    step_withOutside (by rwa [writeOperand_cfg]) es
  rw [hostRead_operand operand hidle] at hread
  have hvalue : regValue (withOutside (writeOperand s x v) es s.reads s.busyReads) x = v % 2 ^ regWidth s.cfg x := by
    rw [← writeOperand_withOutside, regValue_writeOperand operand]
    rfl
  exact ⟨_, (coreRun_succ hwrite).trans (coreRun_succ hread), congrArg (· :: s.reads) hvalue, rfl, hidle⟩

/-! ## The ranges of the draws (R86, R87) -/

/-- Settles O21: both wrappers take a remainder. -/
theorem drawsStayInTheirRanges : Obligations.DrawsStayInTheirRanges := ⟨randBits_lt, fun seed _ => randBelow_lt seed⟩

end Sys2Proof.Machine
end

section
/-! PROOFS. The closed form (43_feistel_engine.md): the round function as a bijection for a prime (R146), and values at or above P^2 (R153). -/

namespace Sys2Proof.Machine

variable {d : Dir} {p v f t : Nat} {ks rk : List Nat}

/-! ## The round function for a prime (R146) -/

/-- For a prime the inverse with the zero policy is its own inverse. -/
theorem inv0_involutive_of_prime {r : Nat} (hp : Nat.Prime p) (hr : r < p) : ∃ y, y < p ∧ inv0 r p = some y ∧ inv0 y p = some r := by
  by_cases hzero : r = 0
  · subst hzero
    exact ⟨0, hp.pos, rfl, rfl⟩
  · have hgcd : Nat.gcd r p = 1 := (Nat.coprime_of_lt_prime hzero hr hp).symm
    have hlt : modinv r p < p := modinv_lt r hp.pos
    have hne : modinv r p ≠ 0 := modinv_ne_zero hp.one_lt hgcd
    have hback : modinv (modinv r p) p = r := (modinv_modinv hp.pos hgcd).trans (Nat.mod_eq_of_lt hr)
    refine ⟨modinv r p, hlt, inv0_of_coprime hzero hgcd, ?_⟩
    rw [inv0_of_coprime hne (Nat.coprime_of_lt_prime hne hlt hp).symm, hback]

/-- Settles O35: the map is its own inverse (`inv0_involutive_of_prime`) and sends 0 to 0. -/
theorem roundFunctionIsABijectionForAPrime : Obligations.RoundFunctionIsABijectionForAPrime := by
  intro p hp
  refine ⟨inv0_zero p, fun r hr => ?_, fun y hy => ?_⟩
  · obtain ⟨y, hy, hinv, hback⟩ := inv0_involutive_of_prime hp hr
    refine ⟨y, hinv, hy, fun hzero => ?_, fun hzero => ?_⟩
    · rw [hzero, inv0_zero] at hback
      exact (Option.some.inj hback).symm
    · rw [hzero, inv0_zero] at hinv
      exact (Option.some.inj hinv).symm
  · obtain ⟨r, hr, hback, hinv⟩ := inv0_involutive_of_prime hp hy
    refine ⟨r, hr, hinv, fun r2 hr2 hinv2 => ?_⟩
    obtain ⟨y2, -, h2, hback2⟩ := inv0_involutive_of_prime hp hr2
    obtain rfl : y = y2 := Option.some.inj (hinv2.symm.trans h2)
    exact Option.some.inj (hback2.symm.trans hback)

/-! ## Values at or above P^2 (R153) -/

/-- Step ACC sees the left half modulo P only (R144). -/
theorem accumulate_mod (d : Dir) (l t p : Nat) : accumulate d (l % p) t p = accumulate d l t p := by
  cases d with
  | enc => exact Nat.mod_add_mod l p t
  | dec => simp only [accumulate, modSub, Nat.mod_mod]

theorem roundOf_reduced (k l r : Nat) :
    roundOf d p k { l := l % p, r := r, f := f, t := t } = roundOf d p k { l := l, r := r, f := f, t := t } := by
  simp only [roundOf, accumulate_mod]

/-- Round 0 reduces the left half, so the rounds do not see whether it was reduced before. -/
theorem rounds_reduced (hks : ks ≠ []) (l r : Nat) :
    rounds d p ks { l := l % p, r := r, f := f, t := t } = rounds d p ks { l := l, r := r, f := f, t := t } := by
  obtain ⟨k, ks, rfl⟩ := List.exists_cons_of_ne_nil hks
  rcases ks with _ | ⟨k2, ks⟩
  · rw [rounds_singleton, rounds_singleton, roundOf_reduced]
  · rw [rounds_cons (by simp), rounds_cons (by simp), roundOf_reduced]

/-- The value with its quotient reduced (R153). -/
def reducedValue (p v : Nat) : Nat := v / p % p * p + v % p

theorem reducedValue_lt (v : Nat) (hp : 0 < p) : reducedValue p v < p ^ 2 := pair_lt_sq (Nat.mod_lt _ hp) (Nat.mod_lt v hp)

theorem cipherHalves_reducedValue (hp : 0 < p) (hrk : rk ≠ []) :
    cipherHalves d p rk (reducedValue p v) f t = cipherHalves d p rk v f t := by
  obtain ⟨hdiv, hmod⟩ := pair_div_mod (l := v / p % p) (Nat.mod_lt v hp)
  rw [cipherHalves, reducedValue, hdiv, hmod]
  exact rounds_reduced (keyOrder_ne_nil d hrk) (v / p) (v % p)

theorem cipher_reducedValue (hp : 0 < p) (hrk : rk ≠ []) : cipher d p rk (reducedValue p v) = cipher d p rk v := by
  rw [cipher, cipher, cipherHalves_reducedValue hp hrk]

/-- Below the square of the modulus the closed forms undo each other (R152). -/
theorem cipher_undoing {c : Nat} (hp : 0 < p) (hrk : rk ≠ []) (hv : v < p ^ 2) (hc : cipher d p rk v = some c) :
    cipher (undoing d) p rk c = some v := by
  obtain ⟨h, hrun, rfl⟩ := Option.map_eq_some_iff.1 hc
  obtain ⟨g, hback, hvalue⟩ := cipherHalves_undoing hp hrk hv hrun 0 0
  rw [cipher, hback, Option.map_some, hvalue]

/-- Settles O42: a value and the reduced one have the same closed form, and the reduced one comes back. -/
theorem oversizedValuesDoNotRoundTrip : Obligations.OversizedValuesDoNotRoundTrip := by
  intro d p v rk hp hrk hv
  have hlt : reducedValue p v < p ^ 2 := reducedValue_lt v hp
  refine ⟨hlt, (cipher_reducedValue hp hrk).symm, fun c hc => ⟨?_, (hlt.trans_le hv).ne⟩⟩
  exact cipher_undoing hp hrk hlt ((cipher_reducedValue hp hrk).trans hc)

end Sys2Proof.Machine
end

section
/-! PROOFS. Completion of GENKEY (R125), ENC and DEC (R151, R212): the accept and the engine's run to its end. -/

namespace Sys2Proof.Machine

variable {s t : State} {d : Dir} {h : Halves} {a n : Nat}

/-! ## ENC and DEC -/

/-- A run that has a next state has one after each of its first steps. -/
theorem engineRun_split {m : Nat} (hrun : engineRun m s = .next t) (hn : n ≤ m) :
    ∃ u, engineRun n s = .next u ∧ engineRun (m - n) u = .next t := by
  induction n generalizing s m with
  | zero => exact ⟨s, rfl, hrun⟩
  | succ n ih =>
    obtain ⟨m, rfl⟩ : ∃ k, m = k + 1 := ⟨m - 1, by omega⟩
    obtain ⟨s1, hstep, hrest⟩ := engineRun_succ_cases hrun
    obtain ⟨u, hu, htail⟩ := ih hrest (by omega)
    exact ⟨u, (engineRun_succ hstep).trans hu, by rwa [Nat.add_sub_add_right]⟩

/-- An engine that is still busy has been busy all along, since one that is not stays as it is. -/
theorem engineRun_busy_before {m : Nat} (hrun : engineRun m s = .next t) (hb : busy t = true) (hn : n ≤ m) :
    ∃ u, engineRun n s = .next u ∧ busy u = true := by
  obtain ⟨u, hu, hrest⟩ := engineRun_split hrun hn
  refine ⟨u, hu, ?_⟩
  by_contra hidle
  rw [engineRun_not_busy _ (Bool.eq_false_iff.2 hidle)] at hrest
  cases hrest
  exact hidle hb

/-- One step before its end a completing ENC or DEC is in JOIN. -/
theorem engineRun_reaches_join (hs : Invariant s) (hk : s.keyvalid = true) (hrun : cipherHalves d s.p s.rk s.v s.f s.t = some h) :
    engineRun (1 + 4 * s.cfg.rounds) (accepted d s) = .next (atRound (accepted d s) h s.cfg.rounds .join) := by
  have ready := hs.cipherable hk d
  have hloop := engineRun_rounds ready (List.nil_append _).symm (keyOrder_ne_nil d hs.rk_ne_nil) hrun
  rw [ready.length_keyOrder] at hloop
  rw [Nat.add_comm, engineRun_succ (engineStep_split d (hs.p_pos hk))]
  exact hloop

/-- Settles O38: the end state is `engineRun_ciphered`'s, whose phase IDLE is that of s; all steps before it are busy because the last of
them is in JOIN. -/
theorem encAndDecCompleteWithTheClosedForm : Obligations.EncAndDecCompleteWithTheClosedForm := by
  intro s d h hs hi hk hrun
  have hend := engineRun_ciphered hs hk hrun
  rw [ciphered, ← hi] at hend
  exact ⟨accepted d s, exec_commandOf d hi hk, hend,
    fun n hn => engineRun_busy_before (engineRun_reaches_join hs hk hrun) rfl (by omega)⟩

/-- Settles O39: the run comes to an F step without an inverse (`engineRun_cipher_stop`), which raises NotInvertible; up to there the rounds
have written the halves, F, T and RND only. -/
theorem encAndDecFaultWhereTheClosedFormStops : Obligations.EncAndDecFaultWhereTheClosedFormStops := by
  intro s d _ hpos hfits hlen hi hk hrun
  obtain ⟨m, n, g, hm, hn, hinv, hreach⟩ := engineRun_cipher_stop (.of_accepted d hpos hfits hlen) hrun
  obtain ⟨hr, hgcd⟩ := inv0_eq_none_iff.1 hinv
  have hfault : engineStep (atRound (accepted d s) g n .f) = .next (raise .notInvertible (atRound (accepted d s) g n .f)) :=
    engineStep_f_fault rfl hpos hinv
  refine ⟨_, raise .notInvertible (atRound (accepted d s) g n .f), m + 1, exec_commandOf d hi hk, by omega, ?_, rfl, rfl, hr, hgcd, hn,
    rfl, rfl, rfl, rfl, rfl, hk, rfl⟩
  rw [engineRun_add m 1 hreach, engineRun_succ hfault, engineRun_zero]

/-! ## GENKEY -/

/-- One attempt of the prime loop: the next candidate is drawn and tested (R101, R102). -/
theorem engineRun_attempt (p : Nat) (hm : s.seed + a ≠ 2 ^ s.cfg.seedBits - 1) :
    engineRun 2 (afterDraws s a p .gDraw) =
      .next (afterDraws s (a + 1) (nthCandidate s (a + 1)) (if passes s (a + 1) then .gCheck else .gDraw)) := by
  have hdraw : engineStep (afterDraws s a p .gDraw) = .next (afterDraws s (a + 1) (nthCandidate s (a + 1)) .gTest) :=
    stepGDraw_below_max (s := afterDraws s a p .gDraw) hm
  have htest := engineStep_gTest (s := afterDraws s (a + 1) (nthCandidate s (a + 1)) .gTest) rfl
  exact (engineRun_succ hdraw).trans (engineRun_succ htest)

theorem engineRun_attempts (hm : s.seed + a ≤ 2 ^ s.cfg.seedBits - 1) (rejected : RejectedBefore s (a + 1)) :
    ∃ p, engineRun (2 * a) (afterDraws s 0 0 .gDraw) = .next (afterDraws s a p .gDraw) := by
  induction a with
  | zero => exact ⟨0, rfl⟩
  | succ a ih =>
    obtain ⟨p, hrun⟩ := ih (by omega) fun j h1 h2 => rejected j h1 (by omega)
    have hfail : passes s (a + 1) = false := rejected (a + 1) (by omega) (by omega)
    have hattempt := engineRun_attempt p (show s.seed + a ≠ 2 ^ s.cfg.seedBits - 1 by omega)
    rw [hfail] at hattempt
    exact ⟨_, (engineRun_add (2 * a) 2 hrun).trans hattempt⟩

/-- The prime loop reaches G_CHECK with the first candidate that passes. -/
theorem engineRun_primeLoop (first : FirstPass s a) (hm : s.seed + a ≤ 2 ^ s.cfg.seedBits - 1) :
    engineRun (2 * a) (afterDraws s 0 0 .gDraw) = .next (afterDraws s a (nthCandidate s a) .gCheck) := by
  obtain ⟨a, rfl⟩ : ∃ b, a = b + 1 := ⟨a - 1, by have := first.pos; omega⟩
  obtain ⟨p, hrun⟩ := engineRun_attempts (by omega) first.rejected
  have hattempt := engineRun_attempt p (show s.seed + a ≠ 2 ^ s.cfg.seedBits - 1 by omega)
  rw [first.passed] at hattempt
  exact (engineRun_add (2 * a) 2 hrun).trans hattempt

/-- A key draw that is not the last. -/
theorem engineStep_key (hpos : 0 < nthCandidate s a) (hm : s.seed + a + n ≠ 2 ^ s.cfg.seedBits - 1) (hn : n + 1 < s.cfg.rounds) :
    engineStep (afterKeys s a n) = .next (afterKeys s a (n + 1)) := by
  have hlt : n < s.cfg.rounds := Nat.lt_of_succ_lt hn
  rw [← afterKeys_succ hlt]
  exact (stepGKey_below_max (s := afterKeys s a n) hpos hlt hm).trans (if_neg hn.ne)

/-- The last key draw completes the command. -/
theorem engineStep_last_key (hpos : 0 < nthCandidate s a) (hm : s.seed + a + n ≠ 2 ^ s.cfg.seedBits - 1) (hn : n + 1 = s.cfg.rounds) :
    engineStep (afterKeys s a n) = .next (completeKey (afterKeys s a (n + 1))) := by
  have hlt : n < s.cfg.rounds := by omega
  rw [← afterKeys_succ hlt]
  exact (stepGKey_below_max (s := afterKeys s a n) hpos hlt hm).trans (if_pos hn)

theorem engineRun_keys (hpos : 0 < nthCandidate s a) (hm : s.seed + a + n ≤ 2 ^ s.cfg.seedBits - 1) (hn : n < s.cfg.rounds) :
    engineRun n (afterKeys s a 0) = .next (afterKeys s a n) := by
  induction n with
  | zero => rfl
  | succ n ih => exact (engineRun_add n 1 (ih (by omega) (by omega))).trans (engineRun_succ (engineStep_key hpos (by omega) hn))

theorem engineRun_all_keys (hpos : 0 < nthCandidate s a) (hrounds : 0 < s.cfg.rounds)
    (hm : s.seed + a + s.cfg.rounds ≤ 2 ^ s.cfg.seedBits - 1) :
    engineRun s.cfg.rounds (afterKeys s a 0) = .next (completeKey (afterKeys s a s.cfg.rounds)) := by
  obtain ⟨n, hn⟩ : ∃ n, n + 1 = s.cfg.rounds := ⟨s.cfg.rounds - 1, by omega⟩
  have hkeys : engineRun n (afterKeys s a 0) = .next (afterKeys s a n) := engineRun_keys hpos (by omega) (by omega)
  rw [← hn, engineRun_add n 1 hkeys, engineRun_succ (engineStep_last_key hpos (by omega) hn), engineRun_zero]

/-- The engine's run of a GENKEY whose seeds suffice and whose first passing candidate is odd. -/
theorem engineRun_genkey (first : FirstPass s a) (hodd : nthCandidate s a % 2 = 1) (hrounds : 0 < s.cfg.rounds)
    (hm : s.seed + a + s.cfg.rounds ≤ 2 ^ s.cfg.seedBits - 1) :
    engineRun (2 * a + 1 + s.cfg.rounds) (afterDraws s 0 0 .gDraw) = .next (completeKey (afterKeys s a s.cfg.rounds)) := by
  have hcheck : engineStep (afterDraws s a (nthCandidate s a) .gCheck) = .next (afterKeys s a 0) :=
    stepGCheck_passes (s := afterDraws s a (nthCandidate s a) .gCheck) hodd
  rw [Nat.add_assoc, engineRun_add (2 * a) _ (engineRun_primeLoop first (by omega)), Nat.add_comm 1, engineRun_succ hcheck]
  exact engineRun_all_keys (by omega) hrounds hm

/-- Settles O29: the accept leads to the prime loop with no candidate drawn, and `engineRun_genkey` from there to the end, where the
registers are those of R125. -/
theorem genkeyEndsWithTheKeyOfItsSeeds : Obligations.GenkeyEndsWithTheKeyOfItsSeeds := by
  rintro s a p hs hi ha hseed hrejected rfl hpass hodd
  have first : FirstPass s a := ⟨ha, hrejected, hpass⟩
  have herr : s.err = 0 := hs.errPhase.2 (by simp [hi])
  exact ⟨_, exec_genkey_idle hi, (engineRun_genkey first hodd hs.rounds_pos hseed).trans (congrArg _ (completeKey_afterKeys a herr))⟩

end Sys2Proof.Machine
end

section
/-! PROOFS. Progress (41_prime_generator.md, 45_command_dispatch.md, 70_reset_and_hazards.md): the prime loop ends (R103), every running command
ends (R195), its result does not depend on the interleaving (R256), and WAIT ends (R65). -/

namespace Sys2Proof.Machine

variable {s t u : State}

/-! ## Runs that count down -/

/-- A run whose steps lower a rank until a goal is reached reaches it within the rank. -/
theorem engineRun_reaches {Q G : State → Prop} {rank : State → Nat}
    (hstep : ∀ {s : State}, Q s → ¬ G s → ∃ t, engineStep s = .next t ∧ Q t ∧ rank t < rank s) (hs : Q s) :
    ∃ n t, n ≤ rank s ∧ engineRun n s = .next t ∧ G t := by
  induction hr : rank s using Nat.strong_induction_on generalizing s with
  | _ r ih =>
    by_cases hg : G s
    · exact ⟨0, s, Nat.zero_le r, rfl, hg⟩
    · obtain ⟨t, h, ht, hlt⟩ := hstep hs hg
      obtain ⟨n, u, hn, hrun, hu⟩ := ih (rank t) (hr ▸ hlt) ht rfl
      exact ⟨n + 1, u, by omega, (engineRun_succ h).trans hrun, hu⟩

theorem engineRun_cfg {n : Nat} (h : engineRun n s = .next t) : t.cfg = s.cfg :=
  engineRun_keeps (Q := fun u => u.cfg = s.cfg) (fun hu hstep => (engineStep_frame hstep).cfg.trans hu) rfl h

/-! ## The prime loop (R103) -/

/-- The loop's two ends: an accepted candidate, or SeedOverflow with SEED at its maximum. -/
def PrimeLoopEnded (s : State) : Prop :=
  s.phase = .gCheck ∧ primeTest s.p s.cfg.certainty s.seed = true ∨
    s.phase = .fault ∧ s.err = 6 ∧ s.seed = 2 ^ s.cfg.seedBits - 1

def InPrimeLoop (s : State) : Prop := s.phase = .gDraw ∨ s.phase = .gTest

/-- The most engine steps the loop can still take: two for each seed that is left, and those of the attempt that is under way. -/
def primeLoopSteps (s : State) : Nat :=
  2 * (2 ^ s.cfg.seedBits - 1 - s.seed) + match s.phase with
    | .gDraw => 1
    | .gTest => 2
    | _ => 0

theorem primeLoopSteps_gDraw (hp : s.phase = .gDraw) : primeLoopSteps s = 2 * (2 ^ s.cfg.seedBits - 1 - s.seed) + 1 := by
  rw [primeLoopSteps, hp]

theorem engineStep_primeLoop (hs : Invariant s) (hin : InPrimeLoop s) :
    ∃ t, engineStep s = .next t ∧ (InPrimeLoop t ∨ PrimeLoopEnded t) ∧ primeLoopSteps t < primeLoopSteps s := by
  have hseed := hs.fits.seed
  rcases hin with hp | hp
  · rw [engineStep_gDraw hp, primeLoopSteps_gDraw hp]
    by_cases hm : s.seed = 2 ^ s.cfg.seedBits - 1
    · exact ⟨_, stepGDraw_at_max hm, .inr (.inr ⟨rfl, rfl, hm⟩), by simp [primeLoopSteps]⟩
    · exact ⟨_, stepGDraw_below_max hm, .inl (.inr rfl), by simp only [primeLoopSteps]; omega⟩
  · cases htest : primeTest s.p s.cfg.certainty s.seed with
    | true => exact ⟨_, engineStep_gTest_accepted hp htest, .inr (.inl ⟨rfl, htest⟩), by simp [primeLoopSteps, hp]⟩
    | false => exact ⟨_, engineStep_gTest_rejected hp htest, .inl (.inl rfl), by simp [primeLoopSteps, hp]⟩

/-- Settles O24: each step of the loop ends it or lowers `primeLoopSteps`. -/
theorem primeLoopEndsByTheSeedBound : Obligations.PrimeLoopEndsByTheSeedBound := by
  intro s hs hp
  obtain ⟨n, t, hn, hrun, hend⟩ := engineRun_reaches (Q := fun u => Invariant u ∧ (InPrimeLoop u ∨ PrimeLoopEnded u)) (G := PrimeLoopEnded)
    (rank := primeLoopSteps)
    (fun ⟨hu, hloop⟩ hmore => by
      obtain ⟨t, h, ht, hlt⟩ := engineStep_primeLoop hu (hloop.resolve_right hmore)
      exact ⟨t, h, ⟨engineStep_keeps_invariant hu h, ht⟩, hlt⟩)
    ⟨hs, .inl (.inl hp)⟩
  refine ⟨n, t, primeLoopSteps_gDraw hp ▸ hn, hrun, ?_⟩
  rw [← engineRun_cfg hrun]
  exact hend

/-! ## Every running command ends (R195, R256) -/

/-- The end of a command: completion or a fault. -/
def Ended (s : State) : Prop := s.phase = .idle ∧ s.done = true ∨ s.phase = .fault

theorem Ended.not_busy (h : Ended s) : busy s = false := by
  obtain ⟨hp, -⟩ | hp := h <;> simp [busy, hp]

theorem not_ended_of_busy (hb : busy s = true) : ¬ Ended s := fun h => by
  simp [h.not_busy] at hb

/-- The most engine steps that the command in progress can still take (R192): four for each round that is left, one for each key, two for
each seed. -/
def stepsLeft (s : State) : Nat :=
  match s.phase with
  | .idle => 0
  | .fault => 0
  | .gDraw => 2 * (2 ^ s.cfg.seedBits - 1 - s.seed) + s.cfg.rounds + 1
  | .gTest => 2 * (2 ^ s.cfg.seedBits - 1 - s.seed) + s.cfg.rounds + 2
  | .gCheck => s.cfg.rounds + 1
  | .gKey => s.cfg.rounds - s.rnd
  | .split => 4 * s.cfg.rounds + 2
  | .f => 4 * (s.cfg.rounds - s.rnd) + 1
  | .t => 4 * (s.cfg.rounds - s.rnd)
  | .acc => 4 * (s.cfg.rounds - s.rnd) - 1
  | .swap => 4 * (s.cfg.rounds - s.rnd) - 2
  | .join => 1

theorem stepsLeft_le (s : State) : stepsLeft s ≤ 2 * 2 ^ s.cfg.seedBits + 4 * s.cfg.rounds + 2 := by
  unfold stepsLeft
  split <;> omega

/-- A busy engine's step ends the command or leaves fewer steps. -/
theorem engineStep_counts_down (hs : Invariant s) (hb : busy s = true) (h : engineStep s = .next t) :
    (busy t = true ∨ Ended t) ∧ stepsLeft t < stepsLeft s := by
  have hseed := hs.fits.seed
  unfold engineStep at h
  cases hp : s.phase <;> simp only [hp] at h
  case idle => simp [busy, hp] at hb
  case fault => simp [busy, hp] at hb
  case gDraw =>
    obtain ⟨-, rfl⟩ | ⟨hm, rfl⟩ := stepGDraw_cases h
    · exact ⟨.inr (.inr rfl), by simp [stepsLeft, hp]⟩
    · exact ⟨.inl rfl, by simp only [stepsLeft, hp]; omega⟩
  case gTest =>
    obtain ⟨-, rfl⟩ | ⟨-, rfl⟩ := stepGTest_cases h
    · exact ⟨.inl rfl, by simp only [stepsLeft, hp]; omega⟩
    · exact ⟨.inl rfl, by simp only [stepsLeft, hp]; omega⟩
  case gCheck =>
    obtain ⟨-, rfl⟩ | ⟨-, -, rfl⟩ := stepGCheck_cases h
    · exact ⟨.inr (.inr rfl), by simp [stepsLeft, hp]⟩
    · exact ⟨.inl rfl, by simp only [stepsLeft, hp]; omega⟩
  case gKey =>
    obtain ⟨-, hrnd, ⟨-, rfl⟩ | ⟨-, -, rfl⟩ | ⟨-, -, rfl⟩⟩ := stepGKey_cases h
    · exact ⟨.inr (.inr rfl), by simp [stepsLeft, hp, hrnd]⟩
    · exact ⟨.inr (.inl ⟨rfl, rfl⟩), by simp [stepsLeft, hp, hrnd]⟩
    · exact ⟨.inl rfl, by simp only [stepsLeft, hp]; omega⟩
  case split =>
    obtain ⟨-, ⟨-, rfl⟩ | ⟨-, rfl⟩⟩ := stepSplit_cases h
    · exact ⟨.inr (.inl ⟨rfl, rfl⟩), by simp [stepsLeft, hp]⟩
    · exact ⟨.inl rfl, by simp only [stepsLeft, hp]; omega⟩
  case f =>
    obtain ⟨-, rfl⟩ | ⟨-, -, -, rfl⟩ | ⟨-, -, -, rfl⟩ := stepF_cases h
    · exact ⟨.inl rfl, by simp [stepsLeft, hp]⟩
    · exact ⟨.inl rfl, by simp [stepsLeft, hp]⟩
    · exact ⟨.inr (.inr rfl), by simp [stepsLeft, hp]⟩
  case t =>
    have hrnd := (hs.inRound (by simp [hp])).rnd_lt
    obtain ⟨-, d, k, -, -, rfl⟩ := stepT_cases h
    exact ⟨.inl rfl, by simp only [stepsLeft, hp]; omega⟩
  case acc =>
    have hrnd := (hs.inRound (by simp [hp])).rnd_lt
    obtain ⟨-, d, -, rfl⟩ := stepAcc_cases h
    exact ⟨.inl rfl, by simp only [stepsLeft, hp]; omega⟩
  case swap =>
    obtain ⟨hlast, rfl⟩ | ⟨hmore, -, rfl⟩ := stepSwap_cases h
    · exact ⟨.inl rfl, by simp only [stepsLeft, hp]; omega⟩
    · exact ⟨.inl rfl, by simp only [stepsLeft, hp]; omega⟩
  case join =>
    obtain ⟨-, rfl⟩ | ⟨-, rfl⟩ := stepJoin_cases h
    · exact ⟨.inr (.inr rfl), by simp [stepsLeft, hp]⟩
    · exact ⟨.inr (.inl ⟨rfl, rfl⟩), by simp [stepsLeft, hp]⟩

theorem engineRun_ends (hs : Invariant s) (hb : busy s = true) : ∃ n t, n ≤ stepsLeft s ∧ engineRun n s = .next t ∧ Ended t :=
  engineRun_reaches (Q := fun u => Invariant u ∧ (busy u = true ∨ Ended u))
    (fun ⟨hu, hrunning⟩ hmore => by
      obtain ⟨t, h⟩ := hu.engineStep_next
      obtain ⟨ht, hlt⟩ := engineStep_counts_down hu (hrunning.resolve_right hmore) h
      exact ⟨t, h, ⟨engineStep_keeps_invariant hu h, ht⟩, hlt⟩)
    ⟨hs, .inl hb⟩

/-- Settles O55: the command ends within `stepsLeft` steps, which the parameters bound. -/
theorem everyRunningCommandEnds : Obligations.EveryRunningCommandEnds := by
  intro s hs hb
  obtain ⟨n, t, hn, hrun, hend⟩ := engineRun_ends hs hb
  exact ⟨n, t, hn.trans (stepsLeft_le s), hrun, hend⟩

/-! ## Steps with pending events -/

/-- The engine's turn among pending events is the engine's step. -/
theorem step_engine_turn {rs : List Nat} {n : Nat} (hc : s.cfg.wf) (es : List Event) (h : engineStep s = .next t) :
    step (withOutside s (.engine :: es) rs n) = .next (withOutside t es rs n) := by
  have hengine := engineStep_withOutside s es rs n
  rw [h] at hengine
  exact (step_withOutside hc es).trans hengine

/-! ## Interleaving (R256) -/

/-- The events that may stand among the engine's steps: the engine's own and the host's two accesses. -/
def IsAccessOrEngine (e : Event) : Prop := e = .engine ∨ (∃ idx, e = .read idx) ∨ ∃ idx v, e = .write idx v

/-- While busy an access takes its turn and leaves the hardware. -/
theorem step_busy_access {e : Event} {rs : List Nat} {n : Nat} (hc : s.cfg.wf) (hb : busy s = true) (he : IsAccessOrEngine e)
    (hne : e ≠ .engine) (es : List Event) : ∃ rs' n', step (withOutside s (e :: es) rs n) = .next (withOutside s es rs' n') := by
  obtain ⟨idx, rfl⟩ | ⟨idx, v, rfl⟩ := he.resolve_left hne
  · exact ⟨_, _, step_withOutside hc es⟩
  · exact ⟨rs, n, (step_withOutside hc es).trans (hostWrite_not_idle v (busy_iff.1 hb).1)⟩

/-- With any accesses among them, the engine's turns of a list and one more do what the engine's steps do alone. -/
theorem coreRun_interleaved {es more : List Event} {rs : List Nat} {n : Nat} (hc : s.cfg.wf) (hes : ∀ e ∈ es, IsAccessOrEngine e)
    (hbusy : ∀ j, j ≤ es.count .engine → ∃ w, engineRun j s = .next w ∧ busy w = true)
    (hrun : engineRun (es.count .engine + 1) s = .next u) :
    ∃ rs' n', Host.Core.run Sys2Proof.core (es.length + 1) (withOutside s (es ++ .engine :: more) rs n) =
      .next (withOutside u more rs' n') := by
  induction es generalizing s rs n with
  | nil =>
    obtain ⟨s1, hstep, hend⟩ := engineRun_succ_cases hrun
    cases hend
    exact ⟨rs, n, coreRun_succ (step_engine_turn hc more hstep)⟩
  | cons e es ih =>
    have hrest : ∀ e ∈ es, IsAccessOrEngine e := fun e he => hes e (List.mem_cons_of_mem _ he)
    by_cases hturn : e = .engine
    · subst hturn
      rw [List.count_cons_self] at hbusy hrun
      obtain ⟨s1, hstep, hlater⟩ := engineRun_succ_cases hrun
      have hbusy1 : ∀ j, j ≤ es.count .engine → ∃ w, engineRun j s1 = .next w ∧ busy w = true := fun j hj => by
        rw [← engineRun_succ hstep]
        exact hbusy (j + 1) (Nat.succ_le_succ hj)
      obtain ⟨rs', n', hend⟩ := ih (rs := rs) (n := n) ((engineStep_frame hstep).cfg ▸ hc) hrest hbusy1 hlater
      exact ⟨rs', n', (coreRun_succ (step_engine_turn hc _ hstep)).trans hend⟩
    · rw [List.count_cons_of_ne hturn] at hbusy hrun
      obtain ⟨w, hw, hb⟩ := hbusy 0 (Nat.zero_le _)
      cases hw
      obtain ⟨rs1, n1, hstep⟩ := step_busy_access (rs := rs) (n := n) hc hb (hes e List.mem_cons_self) hturn (es ++ .engine :: more)
      obtain ⟨rs', n', hend⟩ := ih (rs := rs1) (n := n1) hc hrest hbusy hrun
      exact ⟨rs', n', (coreRun_succ hstep).trans hend⟩

/-- Settles O56, by induction on the list of events (`coreRun_interleaved`). -/
theorem interleavingDoesNotChangeTheResult : Obligations.InterleavingDoesNotChangeTheResult := by
  intro s es more u hc hes hbusy hrun
  obtain ⟨rs, n, hend⟩ := coreRun_interleaved (more := more) (rs := s.reads) (n := s.busyReads) hc hes hbusy hrun
  exact ⟨_, hend, rfl, rfl⟩

/-! ## WAIT (R65) -/

/-- What the end of a WAIT leaves: the later lines due, and a last read STATUS with BUSY = 0. -/
def WaitEnded (es : List Event) (t : State) : Prop :=
  t.events = es ∧ busy t = false ∧ ∃ x xs, t.reads = x :: xs ∧ x = (status t).toNat ∧ x % 2 = 0

/-- A poll of an engine that is not busy reads STATUS and is the last (R65). -/
theorem hostWait_not_busy (hb : busy s = false) : hostWait s = { s with reads := (status s).toNat :: s.reads } := by
  rw [hostWait, if_neg (Bool.eq_false_iff.1 hb)]
  exact hostRead_status s

/-- A poll of a busy engine reads STATUS, and lets the engine have a turn before the next poll. -/
theorem hostWait_busy (hb : busy s = true) :
    hostWait s = { s with events := .engine :: .wait :: s.events, reads := (status s).toNat :: s.reads } := by
  rw [hostWait, if_pos hb]
  exact congrArg (fun u : State => { u with events := .engine :: .wait :: s.events }) (hostRead_status s)

theorem step_last_poll {es : List Event} {rs : List Nat} {n : Nat} (hc : s.cfg.wf) (hb : busy s = false) :
    ∃ t, step (withOutside s (.wait :: es) rs n) = .next t ∧ WaitEnded es t := by
  have hpoll := hostWait_not_busy (s := withOutside s es rs n) hb
  have heven : (status s).toNat % 2 = 0 := Nat.mod_two_ne_one.1 fun h => by simp [(status_mod_two s).1 h] at hb
  exact ⟨_, (step_withOutside hc es).trans (congrArg Host.Outcome.next hpoll), rfl, hb, _, rs, rfl, rfl, heven⟩

theorem step_poll_again {es : List Event} {rs : List Nat} {n : Nat} (hc : s.cfg.wf) (hb : busy s = true) :
    step (withOutside s (.wait :: es) rs n) = .next (withOutside s (.engine :: .wait :: es) ((status s).toNat :: rs) n) :=
  (step_withOutside hc es).trans (congrArg Host.Outcome.next (hostWait_busy (s := withOutside s es rs n) hb))

/-- WAIT ends if the engine's own run ends. -/
theorem coreRun_wait {k : Nat} {es : List Event} {rs : List Nat} {n : Nat} (hc : s.cfg.wf) (hrun : engineRun k s = .next u)
    (hu : busy u = false) : ∃ m t, Host.Core.run Sys2Proof.core m (withOutside s (.wait :: es) rs n) = .next t ∧ WaitEnded es t := by
  induction k generalizing s rs with
  | zero =>
    cases hrun
    obtain ⟨t, hstep, hend⟩ := step_last_poll hc hu
    exact ⟨1, t, coreRun_succ hstep, hend⟩
  | succ k ih =>
    cases hb : busy s with
    | false =>
      obtain ⟨t, hstep, hend⟩ := step_last_poll hc hb
      exact ⟨1, t, coreRun_succ hstep, hend⟩
    | true =>
      obtain ⟨s1, hengine, hrest⟩ := engineRun_succ_cases hrun
      obtain ⟨m, t, hlater, hend⟩ := ih (rs := (status s).toNat :: rs) ((engineStep_frame hengine).cfg ▸ hc) hrest
      refine ⟨m + 1 + 1, t, ?_, hend⟩
      rw [coreRun_succ (step_poll_again hc hb), coreRun_succ (step_engine_turn hc _ hengine), hlater]

theorem engineRun_leaves_busy (hs : Invariant s) : ∃ k u, engineRun k s = .next u ∧ busy u = false := by
  cases hb : busy s with
  | false => exact ⟨0, s, rfl, hb⟩
  | true =>
    obtain ⟨k, u, -, hrun, hend⟩ := engineRun_ends hs hb
    exact ⟨k, u, hrun, hend.not_busy⟩

/-- Settles O57: the engine's own run leaves the busy phases (`engineRun_ends`), and WAIT follows it poll by poll. -/
theorem waitEndsWithBusyClear : Obligations.WaitEndsWithBusyClear := by
  intro s es hs he
  obtain ⟨k, u, hrun, hu⟩ := engineRun_leaves_busy hs
  have hself : withOutside s (.wait :: es) s.reads s.busyReads = s := by rw [← he]; rfl
  obtain ⟨m, t, hlater, hevents, hb, x, xs, hreads, hx, heven⟩ := coreRun_wait (es := es) (rs := s.reads) (n := s.busyReads) hs.cfg hrun hu
  exact ⟨m, t, x, xs, hself ▸ hlater, hevents, hb, hreads, hx, heven⟩

end Sys2Proof.Machine
end
